-- ==== Sys2Proof/Word.lean ====
section
/-!
DEFINITION. The word types of the machine (spec/10_state.md R10, R13, R16, spec/00_scope.md R6: every quantity is
unsigned, so plain bit vectors suffice).
-/

namespace Sys2Proof

/-- One memory cell, one general register, one timer: 8 bits. -/
abbrev Byte := BitVec 8

/-- `PC`, `I`, a stack entry, an instruction word: 16 bits. -/
abbrev Word := BitVec 16

/-- A 4-bit field of an instruction word (spec/00_scope.md R6, R8). -/
abbrev Nibble := BitVec 4

/-- The 12-bit address field `NNN` (spec/00_scope.md R8). -/
abbrev Addr12 := BitVec 12

/-- The number of a general register, 0..15: `V0` .. `VF` (spec/10_state.md R10). -/
abbrev Reg := Fin 16

/-- The id of a key, 0x0..0xF (spec/10_state.md R21, spec/60_exceptions.md R164). -/
abbrev KeyId := Fin 16

end Sys2Proof
end

