-- ==== Sys2Proof/Syntax.lean ====
section
/-!
DEFINITION. The 34 instructions of spec/opcode_table.json (spec/30_encoding.md R64), one constructor per row, in the
table's order. The field letters are those of spec/00_scope.md R8. The four bits the hardware decoder ignores in the
rows CLS, RET, SE Vx,Vy and SNE Vx,Vy (spec/30_encoding.md R69) are kept as the operand `ign`, so that an instruction
stands for exactly one word (log entry 11); no meaning reads them.
-/

namespace Sys2Proof

inductive Instr where
  /-- 00E0 `CLS`, clear screen (R130). -/
  | cls (ign : Nibble)
  /-- 00EE `RET`, return from subroutine (R90). -/
  | ret (ign : Nibble)
  /-- 1NNN `JP NNN`, jump (R91). -/
  | jp (nnn : Addr12)
  /-- 2NNN `CALL NNN`, call subroutine (R92). -/
  | call (nnn : Addr12)
  /-- 3XNN `SE Vx, NN`, skip if equal to literal (R93). -/
  | seImm (x : Reg) (nn : Byte)
  /-- 4XNN `SNE Vx, NN`, skip if not equal to literal (R94). -/
  | sneImm (x : Reg) (nn : Byte)
  /-- 5XY0 `SE Vx, Vy`, skip if registers equal (R95). -/
  | seReg (x y : Reg) (ign : Nibble)
  /-- 6XNN `LD Vx, NN`, load literal (R104). -/
  | ldImm (x : Reg) (nn : Byte)
  /-- 7XNN `ADD Vx, NN`, add literal (R105). -/
  | addImm (x : Reg) (nn : Byte)
  /-- 8XY0 `LD Vx, Vy`, copy register (R106). -/
  | ldReg (x y : Reg)
  /-- 8XY1 `OR Vx, Vy` (R107). -/
  | orReg (x y : Reg)
  /-- 8XY2 `AND Vx, Vy` (R108). -/
  | andReg (x y : Reg)
  /-- 8XY3 `XOR Vx, Vy` (R109). -/
  | xorReg (x y : Reg)
  /-- 8XY4 `ADD Vx, Vy`, add with carry out (R110). -/
  | addReg (x y : Reg)
  /-- 8XY5 `SUB Vx, Vy`, V[X] minus V[Y] (R111). -/
  | subReg (x y : Reg)
  /-- 8XY6 `SHR Vx, Vy`, shift right one bit (R112). -/
  | shrReg (x y : Reg)
  /-- 8XY7 `SUBN Vx, Vy`, V[Y] minus V[X] (R113). -/
  | subnReg (x y : Reg)
  /-- 8XYE `SHL Vx, Vy`, shift left one bit (R114). -/
  | shlReg (x y : Reg)
  /-- 9XY0 `SNE Vx, Vy`, skip if registers differ (R96). -/
  | sneReg (x y : Reg) (ign : Nibble)
  /-- ANNN `LD I, NNN`, load index (R121). -/
  | ldI (nnn : Addr12)
  /-- BNNN `JP V0, NNN`, jump with offset; X is the top nibble of NNN (R97). -/
  | jpV0 (nnn : Addr12)
  /-- CXNN `RND Vx, NN`, random byte under mask (R115). -/
  | rnd (x : Reg) (nn : Byte)
  /-- DXYN `DRW Vx, Vy, N`, draw sprite (R131). -/
  | drw (x y : Reg) (n : Nibble)
  /-- EX9E `SKP Vx`, skip if key down (R140). -/
  | skp (x : Reg)
  /-- EXA1 `SKNP Vx`, skip if key up (R141). -/
  | sknp (x : Reg)
  /-- FX07 `LD Vx, DT`, read delay timer (R143). -/
  | ldVxDT (x : Reg)
  /-- FX0A `LD Vx, K`, wait for a key release (R142). -/
  | ldVxK (x : Reg)
  /-- FX15 `LD DT, Vx`, write delay timer (R144). -/
  | ldDT (x : Reg)
  /-- FX18 `LD ST, Vx`, write sound timer (R145). -/
  | ldST (x : Reg)
  /-- FX1E `ADD I, Vx`, add register to index (R122). -/
  | addI (x : Reg)
  /-- FX29 `LD F, Vx`, address of font glyph (R123). -/
  | ldF (x : Reg)
  /-- FX33 `LD B, Vx`, store binary-coded decimal (R124). -/
  | ldB (x : Reg)
  /-- FX55 `LD [I], Vx`, store registers V0..VX (R125). -/
  | storeRegs (x : Reg)
  /-- FX65 `LD Vx, [I]`, load registers V0..VX (R126). -/
  | loadRegs (x : Reg)
  deriving DecidableEq, Repr

end Sys2Proof
end

