-- ==== Sys2Proof/WellFormed.lean ====
section
/-!
DEFINITION. What an assembler emits (spec/30_encoding.md R69): the canonical form of an instruction, whose ignored bits
are 0. Every other bound (register numbers below 16, literals of 8 and 12 bits) is in the operand's type. An instruction
that is not well formed is an alias word: the hardware still decodes and executes it.
-/

namespace Sys2Proof

/-- The ignored bits of an instruction (spec/30_encoding.md R69); 0 where the row has none. -/
def Instr.ignored : Instr → Nibble
  | .cls ign => ign
  | .ret ign => ign
  | .seReg _ _ ign => ign
  | .sneReg _ _ ign => ign
  | .jp _ => 0
  | .call _ => 0
  | .seImm _ _ => 0
  | .sneImm _ _ => 0
  | .ldImm _ _ => 0
  | .addImm _ _ => 0
  | .ldReg _ _ => 0
  | .orReg _ _ => 0
  | .andReg _ _ => 0
  | .xorReg _ _ => 0
  | .addReg _ _ => 0
  | .subReg _ _ => 0
  | .shrReg _ _ => 0
  | .subnReg _ _ => 0
  | .shlReg _ _ => 0
  | .ldI _ => 0
  | .jpV0 _ => 0
  | .rnd _ _ => 0
  | .drw _ _ _ => 0
  | .skp _ => 0
  | .sknp _ => 0
  | .ldVxDT _ => 0
  | .ldVxK _ => 0
  | .ldDT _ => 0
  | .ldST _ => 0
  | .addI _ => 0
  | .ldF _ => 0
  | .ldB _ => 0
  | .storeRegs _ => 0
  | .loadRegs _ => 0

/-- The canonical instruction of an alias (spec/30_encoding.md R69): the same with its ignored bits 0. -/
def Instr.canonical : Instr → Instr
  | .cls _ => .cls 0
  | .ret _ => .ret 0
  | .jp nnn => .jp nnn
  | .call nnn => .call nnn
  | .seImm x nn => .seImm x nn
  | .sneImm x nn => .sneImm x nn
  | .seReg x y _ => .seReg x y 0
  | .ldImm x nn => .ldImm x nn
  | .addImm x nn => .addImm x nn
  | .ldReg x y => .ldReg x y
  | .orReg x y => .orReg x y
  | .andReg x y => .andReg x y
  | .xorReg x y => .xorReg x y
  | .addReg x y => .addReg x y
  | .subReg x y => .subReg x y
  | .shrReg x y => .shrReg x y
  | .subnReg x y => .subnReg x y
  | .shlReg x y => .shlReg x y
  | .sneReg x y _ => .sneReg x y 0
  | .ldI nnn => .ldI nnn
  | .jpV0 nnn => .jpV0 nnn
  | .rnd x nn => .rnd x nn
  | .drw x y n => .drw x y n
  | .skp x => .skp x
  | .sknp x => .sknp x
  | .ldVxDT x => .ldVxDT x
  | .ldVxK x => .ldVxK x
  | .ldDT x => .ldDT x
  | .ldST x => .ldST x
  | .addI x => .addI x
  | .ldF x => .ldF x
  | .ldB x => .ldB x
  | .storeRegs x => .storeRegs x
  | .loadRegs x => .loadRegs x

/-- Canonical, so that an assembler may emit it (spec/30_encoding.md R69). -/
def Instr.wellFormed (i : Instr) : Bool := i.ignored == 0

end Sys2Proof
end

