-- ==== Sys2Proof/Decode.lean ====
section
/-!
DEFINITION. The decoder and the encoder of spec/30_encoding.md: fields R62, decode R65, illegal words R70, match and
mask R64. Decoding is total: a word is one instruction or is rejected by name.
-/

namespace Sys2Proof

/-! ### Fields of a word (R62, spec/00_scope.md R8) -/

/-- `op[15:12]`, the family nibble. -/
def familyOf (op : Word) : Nibble := op.extractLsb' 12 4
/-- `X = op[11:8]`. -/
def xOf (op : Word) : Nibble := op.extractLsb' 8 4
/-- `Y = op[7:4]`. -/
def yOf (op : Word) : Nibble := op.extractLsb' 4 4
/-- `N = op[3:0]`. -/
def nOf (op : Word) : Nibble := op.extractLsb' 0 4
/-- `NN = op[7:0]`. -/
def nnOf (op : Word) : Byte := op.extractLsb' 0 8
/-- `NNN = op[11:0]`. -/
def nnnOf (op : Word) : Addr12 := op.extractLsb' 0 12

/-- A register field as a register number. -/
def regOf (field : Nibble) : Reg := field.toFin

/-- Why the decoder rejects: raised as `BadOpcode` by the cycle (spec/60_exceptions.md R151). -/
inductive DecodeError where
  /-- No pattern matches the word (R70): it is raised by decode and is safe, the spec's own fault follows. -/
  | badOpcode (op : Word)
  /-- Fewer than two bytes were given to `decode`: never raised by the machine, which fetches two (R60). -/
  | truncated
  deriving DecidableEq, Repr

/-- The decode algorithm of R65: first the family nibble, then for families 0, E and F the low byte and for family 8 the
low nibble. Families 5 and 9 have no second level (R69). -/
def decodeWord (op : Word) : Except DecodeError Instr :=
  match (familyOf op).toNat with
  | 0x0 =>
    match (nnOf op).toNat with
    | 0xE0 => .ok (.cls (xOf op))
    | 0xEE => .ok (.ret (xOf op))
    | _ => .error (.badOpcode op)
  | 0x1 => .ok (.jp (nnnOf op))
  | 0x2 => .ok (.call (nnnOf op))
  | 0x3 => .ok (.seImm (regOf (xOf op)) (nnOf op))
  | 0x4 => .ok (.sneImm (regOf (xOf op)) (nnOf op))
  | 0x5 => .ok (.seReg (regOf (xOf op)) (regOf (yOf op)) (nOf op))
  | 0x6 => .ok (.ldImm (regOf (xOf op)) (nnOf op))
  | 0x7 => .ok (.addImm (regOf (xOf op)) (nnOf op))
  | 0x8 =>
    match (nOf op).toNat with
    | 0x0 => .ok (.ldReg (regOf (xOf op)) (regOf (yOf op)))
    | 0x1 => .ok (.orReg (regOf (xOf op)) (regOf (yOf op)))
    | 0x2 => .ok (.andReg (regOf (xOf op)) (regOf (yOf op)))
    | 0x3 => .ok (.xorReg (regOf (xOf op)) (regOf (yOf op)))
    | 0x4 => .ok (.addReg (regOf (xOf op)) (regOf (yOf op)))
    | 0x5 => .ok (.subReg (regOf (xOf op)) (regOf (yOf op)))
    | 0x6 => .ok (.shrReg (regOf (xOf op)) (regOf (yOf op)))
    | 0x7 => .ok (.subnReg (regOf (xOf op)) (regOf (yOf op)))
    | 0xE => .ok (.shlReg (regOf (xOf op)) (regOf (yOf op)))
    | _ => .error (.badOpcode op)
  | 0x9 => .ok (.sneReg (regOf (xOf op)) (regOf (yOf op)) (nOf op))
  | 0xA => .ok (.ldI (nnnOf op))
  | 0xB => .ok (.jpV0 (nnnOf op))
  | 0xC => .ok (.rnd (regOf (xOf op)) (nnOf op))
  | 0xD => .ok (.drw (regOf (xOf op)) (regOf (yOf op)) (nOf op))
  | 0xE =>
    match (nnOf op).toNat with
    | 0x9E => .ok (.skp (regOf (xOf op)))
    | 0xA1 => .ok (.sknp (regOf (xOf op)))
    | _ => .error (.badOpcode op)
  | 0xF =>
    match (nnOf op).toNat with
    | 0x07 => .ok (.ldVxDT (regOf (xOf op)))
    | 0x0A => .ok (.ldVxK (regOf (xOf op)))
    | 0x15 => .ok (.ldDT (regOf (xOf op)))
    | 0x18 => .ok (.ldST (regOf (xOf op)))
    | 0x1E => .ok (.addI (regOf (xOf op)))
    | 0x29 => .ok (.ldF (regOf (xOf op)))
    | 0x33 => .ok (.ldB (regOf (xOf op)))
    | 0x55 => .ok (.storeRegs (regOf (xOf op)))
    | 0x65 => .ok (.loadRegs (regOf (xOf op)))
    | _ => .error (.badOpcode op)
  | _ => .error (.badOpcode op)

/-! ### Bytes (R60, R62, spec/20_memory.md R44: the byte at the lower address is the high byte) -/

/-- `op = hi * 256 + lo`. -/
def wordOfBytes (hi lo : Byte) : Word := hi ++ lo
/-- The byte an instruction word has at the lower address. -/
def highByte (op : Word) : Byte := op.extractLsb' 8 8
/-- The byte an instruction word has at the higher address. -/
def lowByte (op : Word) : Byte := op.extractLsb' 0 8

/-- The instruction at the head of a byte sequence, and the bytes after it. -/
def decode : List Byte → Except DecodeError (Instr × List Byte)
  | hi :: lo :: rest =>
    match decodeWord (wordOfBytes hi lo) with
    | .ok i => .ok (i, rest)
    | .error e => .error e
  | _ => .error .truncated

/-! ### Encoder (R61, R64) -/

/-- Format `XYN`, and with `y`, `n` a sub-opcode's two nibbles, `XKK` and `FIXED`. -/
def packXYN (family x y n : Nibble) : Word := family ++ x ++ y ++ n
/-- Format `XNN`. -/
def packXNN (family x : Nibble) (nn : Byte) : Word := family ++ x ++ nn
/-- Format `NNN`. -/
def packNNN (family : Nibble) (nnn : Addr12) : Word := family ++ nnn

/-- A register number as a field. -/
def fieldOf (r : Reg) : Nibble := BitVec.ofFin r

/-- The word of an instruction (R64). For a well-formed instruction it is the canonical word an assembler emits. -/
def encode : Instr → Word
  | .cls ign => packXNN 0x0 ign 0xE0
  | .ret ign => packXNN 0x0 ign 0xEE
  | .jp nnn => packNNN 0x1 nnn
  | .call nnn => packNNN 0x2 nnn
  | .seImm x nn => packXNN 0x3 (fieldOf x) nn
  | .sneImm x nn => packXNN 0x4 (fieldOf x) nn
  | .seReg x y ign => packXYN 0x5 (fieldOf x) (fieldOf y) ign
  | .ldImm x nn => packXNN 0x6 (fieldOf x) nn
  | .addImm x nn => packXNN 0x7 (fieldOf x) nn
  | .ldReg x y => packXYN 0x8 (fieldOf x) (fieldOf y) 0x0
  | .orReg x y => packXYN 0x8 (fieldOf x) (fieldOf y) 0x1
  | .andReg x y => packXYN 0x8 (fieldOf x) (fieldOf y) 0x2
  | .xorReg x y => packXYN 0x8 (fieldOf x) (fieldOf y) 0x3
  | .addReg x y => packXYN 0x8 (fieldOf x) (fieldOf y) 0x4
  | .subReg x y => packXYN 0x8 (fieldOf x) (fieldOf y) 0x5
  | .shrReg x y => packXYN 0x8 (fieldOf x) (fieldOf y) 0x6
  | .subnReg x y => packXYN 0x8 (fieldOf x) (fieldOf y) 0x7
  | .shlReg x y => packXYN 0x8 (fieldOf x) (fieldOf y) 0xE
  | .sneReg x y ign => packXYN 0x9 (fieldOf x) (fieldOf y) ign
  | .ldI nnn => packNNN 0xA nnn
  | .jpV0 nnn => packNNN 0xB nnn
  | .rnd x nn => packXNN 0xC (fieldOf x) nn
  | .drw x y n => packXYN 0xD (fieldOf x) (fieldOf y) n
  | .skp x => packXNN 0xE (fieldOf x) 0x9E
  | .sknp x => packXNN 0xE (fieldOf x) 0xA1
  | .ldVxDT x => packXNN 0xF (fieldOf x) 0x07
  | .ldVxK x => packXNN 0xF (fieldOf x) 0x0A
  | .ldDT x => packXNN 0xF (fieldOf x) 0x15
  | .ldST x => packXNN 0xF (fieldOf x) 0x18
  | .addI x => packXNN 0xF (fieldOf x) 0x1E
  | .ldF x => packXNN 0xF (fieldOf x) 0x29
  | .ldB x => packXNN 0xF (fieldOf x) 0x33
  | .storeRegs x => packXNN 0xF (fieldOf x) 0x55
  | .loadRegs x => packXNN 0xF (fieldOf x) 0x65

/-- The two bytes of an instruction, in memory order (spec/20_memory.md R44). -/
def encodeBytes (i : Instr) : List Byte := [highByte (encode i), lowByte (encode i)]

/-! ### The opcode map's match and mask (R64), transcribed row by row -/

/-- The pair (match, mask) of an instruction's row: a word `op` selects the row when `op & mask = match`. -/
def rowOf : Instr → Word × Word
  | .cls _ => (0x00E0, 0xF0FF)
  | .ret _ => (0x00EE, 0xF0FF)
  | .jp _ => (0x1000, 0xF000)
  | .call _ => (0x2000, 0xF000)
  | .seImm _ _ => (0x3000, 0xF000)
  | .sneImm _ _ => (0x4000, 0xF000)
  | .seReg _ _ _ => (0x5000, 0xF000)
  | .ldImm _ _ => (0x6000, 0xF000)
  | .addImm _ _ => (0x7000, 0xF000)
  | .ldReg _ _ => (0x8000, 0xF00F)
  | .orReg _ _ => (0x8001, 0xF00F)
  | .andReg _ _ => (0x8002, 0xF00F)
  | .xorReg _ _ => (0x8003, 0xF00F)
  | .addReg _ _ => (0x8004, 0xF00F)
  | .subReg _ _ => (0x8005, 0xF00F)
  | .shrReg _ _ => (0x8006, 0xF00F)
  | .subnReg _ _ => (0x8007, 0xF00F)
  | .shlReg _ _ => (0x800E, 0xF00F)
  | .sneReg _ _ _ => (0x9000, 0xF000)
  | .ldI _ => (0xA000, 0xF000)
  | .jpV0 _ => (0xB000, 0xF000)
  | .rnd _ _ => (0xC000, 0xF000)
  | .drw _ _ _ => (0xD000, 0xF000)
  | .skp _ => (0xE09E, 0xF0FF)
  | .sknp _ => (0xE0A1, 0xF0FF)
  | .ldVxDT _ => (0xF007, 0xF0FF)
  | .ldVxK _ => (0xF00A, 0xF0FF)
  | .ldDT _ => (0xF015, 0xF0FF)
  | .ldST _ => (0xF018, 0xF0FF)
  | .addI _ => (0xF01E, 0xF0FF)
  | .ldF _ => (0xF029, 0xF0FF)
  | .ldB _ => (0xF033, 0xF0FF)
  | .storeRegs _ => (0xF055, 0xF0FF)
  | .loadRegs _ => (0xF065, 0xF0FF)

/-- The word an opcode_table.json row means by its `nbits` bits `w`: bit 0 is the least significant bit of the one
16-bit word (R60), every bit from `nbits` up is 0. -/
def tableWord (nbits w : Nat) : Word := BitVec.ofNat 16 (w % 2 ^ nbits)

/-- The decoder on a table word, laid out in memory order: high byte first. -/
def decodeTableWord (nbits w : Nat) : Option Instr :=
  match decode [highByte (tableWord nbits w), lowByte (tableWord nbits w)] with
  | .ok (i, _) => some i
  | .error _ => none

end Sys2Proof
end

