-- ==== Sys2Proof/Config.lean ====
section
/-!
DEFINITION. The parameters of the hardware (spec/00_scope.md R5): the record of those the spec leaves to the configuration
and the constants this hardware fixes; the quirk record (spec/10_state.md R22) and the one free value, the random byte
(spec/60_exceptions.md R168).
-/

namespace Sys2Proof

/-- The quirk configuration `Q`, exactly seven one-bit fields (spec/10_state.md R22). -/
structure Quirks where
  /-- AND/OR/XOR clear VF. -/
  resetVF : Bool
  /-- FX55/FX65 advance `I`. -/
  index : Bool
  /-- Sprites wrap at the edges instead of being clipped. -/
  wrapScreen : Bool
  /-- Shifts work in place on VX; when off, VY is the source. -/
  shift : Bool
  /-- BNNN adds V[X] instead of V[0]. -/
  jump : Bool
  /-- RUN stops after a completed DRW. -/
  displayWait : Bool
  /-- An access at an address of 4096 or more faults instead of wrapping. -/
  haltOnOOBAccess : Bool
  deriving DecidableEq, Repr

/-- The configuration record (spec/00_scope.md R5): the parameters that spec/93_implementation_defined.md U9 and U11 call
parameters. The defaults are in `defaultConfig`. -/
structure Config where
  /-- `FONT_BASE`: address of glyph 0. -/
  fontBase : Nat
  /-- `PROG_BASE`: address of the first program byte and reset value of PC. -/
  progBase : Nat
  /-- `FONT`: the bytes of the 16 glyphs, 5 for each. -/
  font : Vector Byte 80
  deriving DecidableEq, Repr

namespace Config

/-- What the spec requires of a configuration (spec/00_scope.md R5, decision D4). -/
def valid (cfg : Config) : Bool := decide (cfg.fontBase + 80 ≤ 4096) && decide (cfg.progBase < 4096)

/-- `MEM_SIZE`: bytes of memory. -/
@[simp, reducible] def memSize : Nat := 4096
/-- `STACK_DEPTH`: capacity of the call stack. -/
@[simp, reducible] def stackDepth : Nat := 16
/-- `SCREEN_W`: columns of the frame buffer. -/
@[simp, reducible] def screenW : Nat := 64
/-- `SCREEN_H`: rows of the frame buffer. -/
@[simp, reducible] def screenH : Nat := 32
/-- `GLYPH_BYTES`: bytes per glyph. -/
@[simp, reducible] def glyphBytes : Nat := 5
/-- `FONT_GLYPHS * GLYPH_BYTES`: bytes of font. -/
@[simp, reducible] def fontBytes : Nat := 80

/-- `quirks0` as `State.reset` takes it. DESIGN CHOICE (log entry 1, unsafe): spec/10_state.md R23 gives no default.
`State.resetWith` takes any other. -/
def quirks0 : Quirks where
  resetVF := false
  index := false
  wrapScreen := false
  shift := false
  jump := false
  displayWait := false
  haltOnOOBAccess := false

/-- The n-th random byte drawn (spec/60_exceptions.md R168: "a free draw", no generator, seed or law). It has no body,
so nothing can be proved of its value: log entry 2. -/
opaque rndByte : Nat → Byte

end Config

end Sys2Proof
end

