-- ==== Sys2Proof/Machine/Defaults.lean ====
section
/-!
DEFINITION. The values spec/00_scope.md R5 gives the configuration, and the standard font table
(spec/70_reset_and_hazards.md R182).
-/

namespace Sys2Proof.Machine

/-- The sixteen glyphs of the font table `FONT` (spec/70_reset_and_hazards.md R182), one after another. UNVERIFIED (log
entry 7): the spec's own rule, from general knowledge. -/
def fontGlyphs : List Byte :=
  [0xF0, 0x90, 0x90, 0x90, 0xF0] ++ [0x20, 0x60, 0x20, 0x20, 0x70] ++ [0xF0, 0x10, 0xF0, 0x80, 0xF0] ++
  [0xF0, 0x10, 0xF0, 0x10, 0xF0] ++ [0x90, 0x90, 0xF0, 0x10, 0x10] ++ [0xF0, 0x80, 0xF0, 0x10, 0xF0] ++
  [0xF0, 0x80, 0xF0, 0x90, 0xF0] ++ [0xF0, 0x10, 0x20, 0x40, 0x40] ++ [0xF0, 0x90, 0xF0, 0x90, 0xF0] ++
  [0xF0, 0x90, 0xF0, 0x10, 0xF0] ++ [0xF0, 0x90, 0xF0, 0x90, 0x90] ++ [0xE0, 0x90, 0xE0, 0x90, 0xE0] ++
  [0xF0, 0x80, 0x80, 0x80, 0xF0] ++ [0xE0, 0x90, 0x90, 0x90, 0xE0] ++ [0xF0, 0x80, 0xF0, 0x80, 0xF0] ++
  [0xF0, 0x80, 0xF0, 0x80, 0x80]

/-- The font table as the 80 bytes it is. -/
def fontTable : Vector Byte 80 := ⟨fontGlyphs.toArray, rfl⟩

/-- The configuration with the values of spec/00_scope.md R5. DESIGN CHOICE (log entry 6): the one `State.reset` takes. -/
def defaultConfig : Config where
  fontBase := 0x050
  progBase := 0x200
  font := fontTable

end Sys2Proof.Machine
end

