-- ==== Sys2Proof/Machine/State.lean ====
section
/-!
DEFINITION. The state of the machine (spec/10_state.md R33: "a state of the machine is exactly a value for each row"),
its fault records (spec/60_exceptions.md R150) and its value after reset (spec/70_reset_and_hazards.md R180).
-/

namespace Sys2Proof.Machine

/-- The sub-kind of a StackError (spec/60_exceptions.md R152). -/
inductive StackErrorKind where
  /-- CALL with 16 entries held. -/
  | overflow
  /-- RET with no entry held. -/
  | underflow
  deriving DecidableEq, Repr

/-- A fault record (spec/60_exceptions.md R150), the value of the latch `State.fault`. Taking a fault is a NEXT state with
the latch set (R155, log entry 4): no definition of the model answers `Outcome.fault`, so a fault never hides the state it
leaves, and this is safe. -/
inductive Fault where
  /-- Raised by decode when no pattern matches the word (R151). Safe: the spec's own fault. -/
  | badOpcode (op : Word)
  /-- Raised by CALL (overflow) and RET (underflow) only (R152). Safe: the spec's own fault. -/
  | stackError (kind : StackErrorKind)
  /-- Raised by `memRead` and `memWrite` under `haltOnOOBAccess`, so by fetch, DRW, FX33, FX55 and FX65; it carries the
  untruncated address (R153). Safe: the spec's own fault. -/
  | outOfBounds (addr : Nat)
  deriving DecidableEq, Repr

/-- Why the model gives no meaning. -/
inductive Refusal where
  /-- Raised by an arm of `exec` whose instruction has no meaning yet; every arm of this model has one, so no step answers
  it. Safe. -/
  | notModelled (mnemonic : String)
  deriving DecidableEq, Repr

/-- `MEM` (spec/10_state.md R24) as a list of cells in one canonical form (`Memory.wf`): addresses strictly rising, all
below 4096, and no cell equal to what an unlisted address reads as, its content after reset (`Memory.resetByte`). -/
abbrev Memory := List Host.Cell

/-- `FB[y][x]`: 32 rows of 64 one-bit pixels (spec/10_state.md R20). -/
abbrev Screen := Vector (Vector Bool 64) 32

/-- One bit per key id (spec/10_state.md R21); `true` is down. -/
abbrev Keys := Vector Bool 16

/-- All state (spec/10_state.md R33), in that table's order; then the configuration, a constant of the machine, and the
model's own counter of random draws. -/
structure State where
  /-- `V[0..15]` (R10). -/
  v : Vector Byte 16
  /-- `I` (R16). -/
  i : Word
  /-- `PC` (R13). -/
  pc : Word
  /-- `DT` (R17). -/
  dt : Byte
  /-- `ST` (R18). -/
  st : Byte
  /-- `STACK[0..SP-1]`, oldest first; `SP` is its length (R19). -/
  stack : List Word
  /-- `MEM` (R24). -/
  mem : Memory
  /-- `FB` (R20). -/
  fb : Screen
  /-- `KEY_NOW` (R21). -/
  keyNow : Keys
  /-- `KEY_PREV` (R21). -/
  keyPrev : Keys
  /-- `Q` (R22). -/
  q : Quirks
  /-- `DRAW_PENDING` (R26). -/
  drawPending : Bool
  /-- `FAULT` (R25). -/
  fault : Option Fault
  /-- `ROM_LOADED` (R27). -/
  romLoaded : Bool
  /-- `ICOUNT` (R27), unbounded. -/
  icount : Nat
  /-- `FONT_END` (R27), one past the last font byte. -/
  fontEnd : Nat
  /-- `PROG_END` (R27), one past the last program byte. -/
  progEnd : Nat
  /-- The configuration (spec/00_scope.md R5): a constant that no instruction and no host operation writes, RESET included
  (log entry 6). -/
  cfg : Config
  /-- The model's own field (log entry 2): how many random bytes have been drawn. -/
  rndIndex : Nat
  deriving DecidableEq, Repr

/-- How an operation of the machine ends. -/
abbrev Result := Host.Outcome State Fault Refusal

/-- Every pixel off. -/
def Screen.clear : Screen := Vector.replicate 32 (Vector.replicate 64 false)

/-- The machine of configuration `cfg` right after RESET(quirks0) (spec/70_reset_and_hazards.md R180; the values are those
of spec/10_state.md R33). Memory lists nothing: an unlisted address reads as its reset content, font or 0. -/
def State.resetWith (cfg : Config) (quirks0 : Quirks) : State where
  v := Vector.replicate 16 0
  i := 0
  pc := BitVec.ofNat 16 cfg.progBase
  dt := 0
  st := 0
  stack := []
  mem := []
  fb := Screen.clear
  keyNow := Vector.replicate 16 false
  keyPrev := Vector.replicate 16 false
  q := quirks0
  drawPending := false
  fault := none
  romLoaded := false
  icount := 0
  fontEnd := cfg.fontBase + Config.fontBytes
  progEnd := cfg.progBase
  cfg := cfg
  rndIndex := 0

/-- The machine right after reset, with the configuration's default values (log entry 6) and every quirk off. DESIGN
CHOICE (log entry 1, unsafe): the spec leaves `quirks0` to the host (spec/10_state.md R23). -/
def State.reset : State := State.resetWith defaultConfig Config.quirks0

end Sys2Proof.Machine
end

