-- ==== Sys2Proof/Machine/Memory.lean ====
section
/-!
DEFINITION. The 4096 cells (spec/10_state.md R24) as one canonical list, and their content after reset: the font of the
configuration (spec/70_reset_and_hazards.md R182) and zeros (R180).
-/

namespace Sys2Proof.Machine

/-- What cell `a` holds after reset, so what an unlisted address reads as (R180). -/
def Memory.resetByte (cfg : Config) (a : Nat) : Byte :=
  if cfg.fontBase ≤ a then cfg.font.getD (a - cfg.fontBase) 0 else 0

/-- The content of cell `a`. -/
def Memory.read (cfg : Config) : Memory → Nat → Byte
  | [], a => Memory.resetByte cfg a
  | (b, w) :: m, a => if a = b then w else Memory.read cfg m a

/-- A cell put before `m`, unless it equals what its address reads as unlisted. -/
def Memory.consCell (cfg : Config) (a : Nat) (w : Byte) (m : Memory) : Memory :=
  if w = Memory.resetByte cfg a then m else (a, w) :: m

/-- `m` with cell `a` set to `w`, in canonical form. -/
def Memory.write (cfg : Config) : Memory → Nat → Byte → Memory
  | [], a, w => Memory.consCell cfg a w []
  | (b, x) :: m, a, w =>
    if a < b then Memory.consCell cfg a w ((b, x) :: m)
    else if a = b then Memory.consCell cfg a w m
    else (b, x) :: Memory.write cfg m a w

/-- Consecutive cells from `base` up set to `bytes`, directly and not through `MemWrite` (LOAD,
spec/70_reset_and_hazards.md R184). -/
def Memory.writeBytes (cfg : Config) : Memory → Nat → List Byte → Memory
  | m, _, [] => m
  | m, base, w :: ws => Memory.writeBytes cfg (Memory.write cfg m base w) (base + 1) ws

/-- The canonical form from a lower bound up: strictly rising addresses from `low` to 4095, no cell equal to its reset
byte. -/
def Memory.wfFrom (cfg : Config) : Nat → Memory → Bool
  | _, [] => true
  | low, (a, w) :: m =>
    decide (low ≤ a) && decide (a < Config.memSize) && decide (w ≠ Memory.resetByte cfg a) &&
      Memory.wfFrom cfg (a + 1) m

/-- The canonical form of memory: equal memories are equal lists. -/
def Memory.wf (cfg : Config) (m : Memory) : Bool := Memory.wfFrom cfg 0 m

end Sys2Proof.Machine
end

