-- ==== Sys2Proof/Machine/Ops.lean ====
section
/-!
DEFINITION. The shared operations: registers, memory accessors (spec/20_memory.md R41, R42), taking a fault
(spec/60_exceptions.md R155), the byte-by-byte transfers, fetch (spec/40_cycle.md R81), the stack, skips.
-/

namespace Sys2Proof.Machine

/-! ### Registers -/

/-- `V[x]` (spec/10_state.md R10: every register is ordinary, none is hard-wired). -/
def State.readV (s : State) (x : Reg) : Byte := s.v[x]

/-- `V[x] <- b`. -/
def State.writeV (s : State) (x : Reg) (b : Byte) : State := { s with v := s.v.set x b }

/-- `PC <- a`. -/
def State.setPC (s : State) (a : Word) : State := { s with pc := a }

/-- `I <- a`. -/
def State.setI (s : State) (a : Word) : State := { s with i := a }

/-! ### Taking a fault

There is no return from a fault: only RESET clears the latch (spec/60_exceptions.md R157,
spec/70_reset_and_hazards.md R181), see `hostReset`. -/

/-- Fault entry (spec/60_exceptions.md R155): the latch takes the record; nothing else is saved, changed or undone. -/
def State.raise (s : State) (f : Fault) : State := { s with fault := some f }

/-- The cycle ends here with fault `f`. -/
def raiseFault (f : Fault) (s : State) : Result := .next (s.raise f)

/-- Where a transfer of several bytes ended: complete, or with a fault at one of its accesses and the effects of the
accesses before it (spec/60_exceptions.md R156: no rollback). -/
inductive Progress where
  | done (s : State)
  | raised (f : Fault) (s : State)
  deriving DecidableEq, Repr

/-- The cycle after a transfer. -/
def finish : Progress → Result
  | .done s => .next s
  | .raised f s => raiseFault f s

/-- The numeric code of the latch (spec/60_exceptions.md R150). -/
def faultCode : Option Fault → Nat
  | none => 0
  | some (.badOpcode _) => 1
  | some (.stackError _) => 2
  | some (.outOfBounds _) => 3

/-- The sub-kind of a StackError as a number (spec/60_exceptions.md R150). -/
def stackErrorCode : StackErrorKind → Nat
  | .overflow => 0
  | .underflow => 1

/-! ### Memory accessors -/

/-- Whether an access at `addr` faults (spec/20_memory.md R41, R42, R49). -/
def State.outOfBounds (s : State) (addr : Nat) : Bool := s.q.haltOnOOBAccess && decide (Config.memSize ≤ addr)

/-- `MemRead(addr, 1)` (spec/20_memory.md R41); `addr` is never truncated before the test (R43). -/
def memRead (s : State) (addr : Nat) : Except Fault Byte :=
  if s.outOfBounds addr then .error (.outOfBounds addr) else .ok (s.mem.read s.cfg (addr % Config.memSize))

/-- `MemWrite(addr, 1, b)` (spec/20_memory.md R42). -/
def memWrite (s : State) (addr : Nat) (b : Byte) : Except Fault State :=
  if s.outOfBounds addr then .error (.outOfBounds addr)
  else .ok { s with mem := s.mem.write s.cfg (addr % Config.memSize) b }

/-- The address of byte `k` of an access (spec/43_index_memory.md R120): a natural-number sum (spec/20_memory.md R43). -/
def effAddr (base : Word) (k : Nat) : Nat := base.toNat + k

/-- `I` after element `k` of a block move when `bump` (spec/43_index_memory.md R125, R126: once per register moved). -/
def State.bumpI (s : State) (bump : Bool) (base : Word) (k : Nat) : State :=
  if bump then s.setI (BitVec.ofNat 16 (base.toNat + k + 1)) else s

/-- Store `bytes` at `base + k`, `base + k + 1`, … in that order, moving `I` along when `bump`; the first fault ends it
(spec/43_index_memory.md R124, R125). -/
def storeBytes (bump : Bool) (base : Word) : Nat → List Byte → State → Progress
  | _, [], s => .done s
  | k, b :: bs, s =>
    match memWrite s (effAddr base k) b with
    | .error f => .raised f s
    | .ok t => storeBytes bump base (k + 1) bs (t.bumpI bump base k)

/-- Load the registers of the list, register `k` from `base + k`, in order, moving `I` along when `bump`; the first fault
ends it (spec/43_index_memory.md R126). -/
def loadBytes (bump : Bool) (base : Word) : List Reg → State → Progress
  | [], s => .done s
  | r :: rs, s =>
    match memRead s (effAddr base r.val) with
    | .error f => .raised f s
    | .ok b => loadBytes bump base rs ((s.writeV r b).bumpI bump base r.val)

/-- V0..VX, in order. -/
def regsUpTo (x : Reg) : List Reg := (List.finRange 16).take (x.val + 1)

/-! ### Fetch -/

/-- Fetch (spec/40_cycle.md R81): high byte from `PC`, then low byte from `PC + 1` (untruncated); `PC` advances modulo
2^16 only after both reads. -/
def fetch (s : State) : Except Fault (Word × State) :=
  match memRead s s.pc.toNat with
  | .error f => .error f
  | .ok hi =>
    match memRead s (s.pc.toNat + 1) with
    | .error f => .error f
    | .ok lo => .ok (wordOfBytes hi lo, s.setPC (s.pc + 2))

/-- `ICOUNT <- ICOUNT + 1` at the end of a cycle that raised no fault (spec/40_cycle.md R85). -/
def State.countCycle (s : State) : State :=
  match s.fault with
  | none => { s with icount := s.icount + 1 }
  | some _ => s

/-! ### Stack and skips -/

/-- Push an address (spec/41_control_flow.md R92): the new entry is the last of the list. -/
def State.push (s : State) (a : Word) : State := { s with stack := s.stack ++ [a] }

/-- Pop the newest entry (spec/41_control_flow.md R90), none when the stack is empty. -/
def State.pop? (s : State) : Option (Word × State) :=
  match s.stack.getLast? with
  | none => none
  | some a => some (a, { s with stack := s.stack.dropLast })

/-- A skip (spec/41_control_flow.md R98): the post-fetch `PC` plus 2 modulo 2^16 when the condition holds. -/
def State.skipIf (s : State) (c : Bool) : State := if c then s.setPC (s.pc + 2) else s

end Sys2Proof.Machine
end

