-- ==== Sys2Proof/Machine/Operands.lean ====
section
/-!
DEFINITION. Operand forms: how an instruction's fields and the quirks name its operands (spec/30_encoding.md R62).
-/

namespace Sys2Proof.Machine

/-- A 12-bit address, zero-extended to 16 bits (spec/30_encoding.md R62). -/
def zext12 (nnn : Addr12) : Word := nnn.setWidth 16

/-- A byte, zero-extended to 16 bits (spec/00_scope.md R6). -/
def zext8 (b : Byte) : Word := b.setWidth 16

/-- A digit or key id: the low nibble of a register (spec/43_index_memory.md R123, spec/45_keys_timers.md R140). -/
def lowNibble (b : Byte) : Fin 16 := (b.extractLsb' 0 4).toFin

/-- The top nibble of `NNN`, which BNNN reads as X under the `jump` quirk (spec/41_control_flow.md R97). -/
def topNibble (nnn : Addr12) : Reg := (nnn.extractLsb' 8 4).toFin

/-- The register BNNN adds (spec/41_control_flow.md R97). -/
def jumpReg (q : Quirks) (nnn : Addr12) : Reg := if q.jump then topNibble nnn else 0

/-- The value a shift works on (spec/42_alu.md R112, R114): V[X] in place under the `shift` quirk, else V[Y]. -/
def State.shiftSource (s : State) (x y : Reg) : Byte := if s.q.shift then s.readV x else s.readV y

/-- The address of a digit's glyph (spec/43_index_memory.md R123). -/
def glyphAddr (cfg : Config) (digit : Fin 16) : Word :=
  BitVec.ofNat 16 (cfg.fontBase + digit.val * Config.glyphBytes)

/-- The three decimal digits of a byte, hundreds first (spec/43_index_memory.md R124). -/
def bcdDigits (b : Byte) : List Byte :=
  [BitVec.ofNat 8 (b.toNat / 100), BitVec.ofNat 8 (b.toNat / 10 % 10), BitVec.ofNat 8 (b.toNat % 10)]

/-- The column of offset `c` of a sprite that starts at `x0` (spec/44_display.md R131): wrapped, or none when it is off
the screen. -/
def spriteCol (wrap : Bool) (x0 c : Nat) : Option (Fin 64) :=
  if wrap then some ⟨(x0 + c) % 64, Nat.mod_lt _ (by decide)⟩
  else if h : x0 + c < 64 then some ⟨x0 + c, h⟩ else none

/-- The row of offset `r` of a sprite that starts at `y0` (spec/44_display.md R131). -/
def spriteRow (wrap : Bool) (y0 r : Nat) : Option (Fin 32) :=
  if wrap then some ⟨(y0 + r) % 32, Nat.mod_lt _ (by decide)⟩
  else if h : y0 + r < 32 then some ⟨y0 + r, h⟩ else none

/-- The pixel of column offset `c` in a sprite byte: bit 7 is the leftmost (spec/44_display.md R132). -/
def spriteBit (byte : Byte) (c : Nat) : Bool := byte.getLsbD (7 - c)

/-- The key-release edge detector (spec/45_keys_timers.md R146): the lowest key that was down last frame and is up now. -/
def State.releasedKey (s : State) : Option KeyId :=
  (List.finRange 16).find? fun k => s.keyPrev[k] && !s.keyNow[k]

end Sys2Proof.Machine
end

