-- ==== Sys2Proof/Machine/Flags.lean ====
section
/-!
DEFINITION. VF, the machine's only flag (spec/10_state.md R12): what each instruction computes for it, from the operands
as they were before the instruction (spec/42_alu.md R100).
-/

namespace Sys2Proof.Machine

/-- The number of VF (spec/10_state.md R12). -/
@[simp, reducible] def vf : Reg := 15

/-- A flag as the byte VF receives. -/
def flagByte (b : Bool) : Byte := if b then 1 else 0

/-- Carry out of an addition (spec/42_alu.md R101, R110): the 9-bit sum exceeds 255. -/
def carryFlag (a b : Byte) : Bool := decide (255 < a.toNat + b.toNat)

/-- No borrow in `a - b` (spec/42_alu.md R102): the minuend is not below the subtrahend, equality included. -/
def noBorrowFlag (a b : Byte) : Bool := decide (b.toNat ≤ a.toNat)

/-- The bit a right shift moves out (spec/42_alu.md R103, R112). -/
def shiftOutRight (b : Byte) : Bool := b.getLsbD 0

/-- The bit a left shift moves out (spec/42_alu.md R103, R114). -/
def shiftOutLeft (b : Byte) : Bool := b.getLsbD 7

/-- The result into V[X], then the flag into VF: the flag is the last write (spec/42_alu.md R100). -/
def State.writeWithFlag (s : State) (x : Reg) (result : Byte) (flag : Bool) : State :=
  (s.writeV x result).writeV vf (flagByte flag)

/-- The result of OR, AND, XOR into V[X], then VF <- 0 when `resetVF` (spec/42_alu.md R107). -/
def State.writeLogic (s : State) (x : Reg) (result : Byte) : State :=
  if s.q.resetVF then (s.writeV x result).writeV vf 0 else s.writeV x result

end Sys2Proof.Machine
end

