-- ==== Sys2Proof/Machine/Alu.lean ====
section
/-!
DEFINITION. Register load, arithmetic, logic, shift and random instructions (spec/42_alu.md).
-/

namespace Sys2Proof.Machine

/-- LD Vx,NN (R104). -/
def execLdImm (x : Reg) (nn : Byte) (s : State) : Result := .next (s.writeV x nn)

/-- ADD Vx,NN (R105): no flag. -/
def execAddImm (x : Reg) (nn : Byte) (s : State) : Result := .next (s.writeV x (s.readV x + nn))

/-- LD Vx,Vy (R106). -/
def execLdReg (x y : Reg) (s : State) : Result := .next (s.writeV x (s.readV y))

/-- OR Vx,Vy (R107). -/
def execOrReg (x y : Reg) (s : State) : Result := .next (s.writeLogic x (s.readV x ||| s.readV y))

/-- AND Vx,Vy (R108). -/
def execAndReg (x y : Reg) (s : State) : Result := .next (s.writeLogic x (s.readV x &&& s.readV y))

/-- XOR Vx,Vy (R109). -/
def execXorReg (x y : Reg) (s : State) : Result := .next (s.writeLogic x (s.readV x ^^^ s.readV y))

/-- ADD Vx,Vy (R110). -/
def execAddReg (x y : Reg) (s : State) : Result :=
  .next (s.writeWithFlag x (s.readV x + s.readV y) (carryFlag (s.readV x) (s.readV y)))

/-- SUB Vx,Vy (R111). -/
def execSubReg (x y : Reg) (s : State) : Result :=
  .next (s.writeWithFlag x (s.readV x - s.readV y) (noBorrowFlag (s.readV x) (s.readV y)))

/-- SHR Vx,Vy (R112). -/
def execShrReg (x y : Reg) (s : State) : Result :=
  .next (s.writeWithFlag x (s.shiftSource x y >>> 1) (shiftOutRight (s.shiftSource x y)))

/-- SUBN Vx,Vy (R113). -/
def execSubnReg (x y : Reg) (s : State) : Result :=
  .next (s.writeWithFlag x (s.readV y - s.readV x) (noBorrowFlag (s.readV y) (s.readV x)))

/-- SHL Vx,Vy (R114). -/
def execShlReg (x y : Reg) (s : State) : Result :=
  .next (s.writeWithFlag x (s.shiftSource x y <<< 1) (shiftOutLeft (s.shiftSource x y)))

/-- RND Vx,NN (R115): the byte is a free value (log entry 2), and each execution takes the next one. -/
def execRnd (x : Reg) (nn : Byte) (s : State) : Result :=
  .next ({ s with rndIndex := s.rndIndex + 1 }.writeV x (Config.rndByte s.rndIndex &&& nn))

end Sys2Proof.Machine
end

