-- ==== Sys2Proof/Machine/Control.lean ====
section
/-!
DEFINITION. Control transfer (spec/41_control_flow.md). In every meaning `s.pc` is the post-fetch PC
(spec/10_state.md R13).
-/

namespace Sys2Proof.Machine

/-- RET (R90). -/
def execRet (s : State) : Result :=
  match s.pop? with
  | none => raiseFault (.stackError .underflow) s
  | some (a, t) => .next (t.setPC a)

/-- JP NNN (R91). -/
def execJp (nnn : Addr12) (s : State) : Result := .next (s.setPC (zext12 nnn))

/-- CALL NNN (R92): the post-fetch PC is pushed. A stack of more than 16 entries is unreachable and counts as full
(log entry 12). -/
def execCall (nnn : Addr12) (s : State) : Result :=
  if s.stack.length < Config.stackDepth then .next ((s.push s.pc).setPC (zext12 nnn))
  else raiseFault (.stackError .overflow) s

/-- SE Vx,NN (R93). -/
def execSeImm (x : Reg) (nn : Byte) (s : State) : Result := .next (s.skipIf (s.readV x == nn))

/-- SNE Vx,NN (R94). -/
def execSneImm (x : Reg) (nn : Byte) (s : State) : Result := .next (s.skipIf (s.readV x != nn))

/-- SE Vx,Vy (R95). -/
def execSeReg (x y : Reg) (s : State) : Result := .next (s.skipIf (s.readV x == s.readV y))

/-- SNE Vx,Vy (R96). -/
def execSneReg (x y : Reg) (s : State) : Result := .next (s.skipIf (s.readV x != s.readV y))

/-- JP V0,NNN (R97): the sum is modulo 2^16 only. -/
def execJpV0 (nnn : Addr12) (s : State) : Result :=
  .next (s.setPC (zext12 nnn + zext8 (s.readV (jumpReg s.q nnn))))

end Sys2Proof.Machine
end

