-- ==== Sys2Proof/Machine/Display.lean ====
section
/-!
DEFINITION. Display instructions (spec/44_display.md): clear screen and the sprite blitter.
-/

namespace Sys2Proof.Machine

/-- `FB[y][x]`. -/
def Screen.pixel (fb : Screen) (y : Fin 32) (x : Fin 64) : Bool := (fb[y])[x]

/-- `FB[y][x] <- b`. -/
def Screen.setPixel (fb : Screen) (y : Fin 32) (x : Fin 64) (b : Bool) : Screen := fb.set y ((fb[y]).set x b)

/-- One row of a sprite, at the column offsets of the list in order: each target pixel is XORed with its sprite bit, and
`collided` becomes true when a bit 1 meets a pixel that is on (R131, R135); a pixel off the screen is skipped (R133). -/
def blitRow (wrap : Bool) (x0 : Nat) (y : Fin 32) (byte : Byte) : List Nat → Screen × Bool → Screen × Bool
  | [], p => p
  | c :: cs, (fb, collided) =>
    match spriteCol wrap x0 c with
    | none => blitRow wrap x0 y byte cs (fb, collided)
    | some x =>
      blitRow wrap x0 y byte cs
        (fb.setPixel y x (fb.pixel y x ^^ spriteBit byte c), collided || (spriteBit byte c && fb.pixel y x))

/-- The rows of a sprite, at the row offsets of the list in order (R131). The byte of every row is read, a clipped one's
too (R133); a fault keeps the rows before it and writes neither VF nor `DRAW_PENDING` (R136). At the end VF takes the
collision and `DRAW_PENDING` is set. -/
def blitRows (x0 y0 : Nat) (base : Word) : List Nat → Bool → State → Progress
  | [], collided, s => .done ({ s with drawPending := true }.writeV vf (flagByte collided))
  | r :: rs, collided, s =>
    match memRead s (effAddr base r) with
    | .error f => .raised f s
    | .ok byte =>
      match spriteRow s.q.wrapScreen y0 r with
      | none => blitRows x0 y0 base rs collided s
      | some y =>
        let p := blitRow s.q.wrapScreen x0 y byte (List.range 8) (s.fb, collided)
        blitRows x0 y0 base rs p.2 { s with fb := p.1 }

/-- CLS (R130). -/
def execCls (s : State) : Result := .next { s with fb := Screen.clear }

/-- DRW Vx,Vy,N (R131): the start coordinates are V[X] modulo 64 and V[Y] modulo 32. -/
def execDrw (x y : Reg) (n : Nibble) (s : State) : Result :=
  finish (blitRows ((s.readV x).toNat % Config.screenW) ((s.readV y).toNat % Config.screenH) s.i
    (List.range n.toNat) false s)

end Sys2Proof.Machine
end

