-- ==== Sys2Proof/Machine/Index.lean ====
section
/-!
DEFINITION. Index register and memory instructions (spec/43_index_memory.md).
-/

namespace Sys2Proof.Machine

/-- LD I,NNN (R121). -/
def execLdI (nnn : Addr12) (s : State) : Result := .next (s.setI (zext12 nnn))

/-- ADD I,Vx (R122): modulo 2^16, no flag. -/
def execAddI (x : Reg) (s : State) : Result := .next (s.setI (s.i + zext8 (s.readV x)))

/-- LD F,Vx (R123): the low nibble selects the glyph. -/
def execLdF (x : Reg) (s : State) : Result := .next (s.setI (glyphAddr s.cfg (lowNibble (s.readV x))))

/-- LD B,Vx (R124): hundreds, tens, ones at I, I + 1, I + 2; I is unchanged. -/
def execLdB (x : Reg) (s : State) : Result := finish (storeBytes false s.i 0 (bcdDigits (s.readV x)) s)

/-- LD [I],Vx (R125). -/
def execStoreRegs (x : Reg) (s : State) : Result :=
  finish (storeBytes s.q.index s.i 0 ((regsUpTo x).map s.readV) s)

/-- LD Vx,[I] (R126). -/
def execLoadRegs (x : Reg) (s : State) : Result := finish (loadBytes s.q.index s.i (regsUpTo x) s)

end Sys2Proof.Machine
end

