-- ==== Sys2Proof/Machine/KeysTimers.lean ====
section
/-!
DEFINITION. Key and timer instructions (spec/45_keys_timers.md).
-/

namespace Sys2Proof.Machine

/-- SKP Vx (R140). -/
def execSkp (x : Reg) (s : State) : Result := .next (s.skipIf s.keyNow[lowNibble (s.readV x)])

/-- SKNP Vx (R141). -/
def execSknp (x : Reg) (s : State) : Result := .next (s.skipIf (!s.keyNow[lowNibble (s.readV x)]))

/-- LD Vx,K (R142): the lowest released key into V[X], or PC back to this instruction. -/
def execLdVxK (x : Reg) (s : State) : Result :=
  match s.releasedKey with
  | none => .next (s.setPC (s.pc - 2))
  | some k => .next (s.writeV x (BitVec.ofNat 8 k.val))

/-- LD Vx,DT (R143). -/
def execLdVxDT (x : Reg) (s : State) : Result := .next (s.writeV x s.dt)

/-- LD DT,Vx (R144). -/
def execLdDT (x : Reg) (s : State) : Result := .next { s with dt := s.readV x }

/-- LD ST,Vx (R145). -/
def execLdST (x : Reg) (s : State) : Result := .next { s with st := s.readV x }

end Sys2Proof.Machine
end

