-- ==== Sys2Proof/Machine/Step.lean ====
section
/-!
DEFINITION. STEP, one fetch-decode-execute cycle (spec/40_cycle.md R85), and a program word placed where it fetches.
-/

namespace Sys2Proof.Machine

/-- STEP (spec/40_cycle.md R85): a halted core changes nothing; a fetch fault leaves PC, a bad opcode leaves PC + 2; after
the execute phase ICOUNT counts the cycle unless it raised a fault. -/
def step (s : State) : Host.Outcome State Fault Refusal :=
  match s.fault with
  | some _ => .next s
  | none =>
    match fetch s with
    | .error f => raiseFault f s
    | .ok (op, t) =>
      match decodeWord op with
      | .error _ => raiseFault (.badOpcode op) t
      | .ok i =>
        match exec i t with
        | .next u => .next u.countCycle
        | .fault r => .fault r
        | .refused r => .refused r

/-- `s` with a table word in the two cells the next fetch reads, high byte first (spec/20_memory.md R44, R53); nothing
else changes. The next step runs it when the core is not halted and, under `haltOnOOBAccess`, PC + 1 is below 4096. -/
def State.withFetchWord (s : State) (nbits w : Nat) : State :=
  { s with
    mem := (s.mem.write s.cfg (s.pc.toNat % Config.memSize) (highByte (tableWord nbits w))).write s.cfg
      ((s.pc.toNat + 1) % Config.memSize) (lowByte (tableWord nbits w)) }

end Sys2Proof.Machine
end

