-- ==== Sys2Proof/Machine/HostOps.lean ====
section
/-!
DEFINITION. The host operations on the core's boundary (spec/60_exceptions.md R161): atomic, between cycles (R162). STEP
is `Machine.step`; the others stand here. All but STEP and RUN act on a halted core too (R157).
-/

namespace Sys2Proof.Machine

/-- RESET(quirks0) (spec/70_reset_and_hazards.md R180, R181): every row of spec/10_state.md R33 at its reset value; the
configuration is a constant (spec/10_state.md R28). The count of random draws goes on (log entry 3): the random source is
outside the core. -/
def hostReset (quirks0 : Quirks) (s : State) : State :=
  { State.resetWith s.cfg quirks0 with rndIndex := s.rndIndex }

/-- What an operation reports to the host instead of a new state; the state is then unchanged. -/
inductive HostError where
  /-- Raised by LOAD of more bytes than fit (spec/70_reset_and_hazards.md R185). Safe: the spec's own refusal. -/
  | romTooLong (len : Nat)
  /-- Raised by STEP and RUN if a step ended in a fault or a refusal of the model; no step of this model does. Safe. -/
  | stopped
  deriving DecidableEq, Repr

/-- LOAD(bytes) (spec/70_reset_and_hazards.md R184 to R186): memory and metadata only; too many bytes change nothing. -/
def hostLoad (bytes : List Byte) (s : State) : Except HostError State :=
  if bytes.length ≤ Config.memSize - s.cfg.progBase then
    .ok { s with
      mem := s.mem.writeBytes s.cfg s.cfg.progBase bytes
      progEnd := s.cfg.progBase + bytes.length
      romLoaded := true }
  else .error (.romTooLong bytes.length)

/-- RUN(count) (spec/40_cycle.md R86): up to `count` cycles; a fault ends it; after a cycle that leaves `DRAW_PENDING` set
the flag is cleared, and the batch stops there when `displayWait` is on at that moment. -/
def hostRun : Nat → State → Result
  | 0, s => .next s
  | n + 1, s =>
    match s.fault with
    | some _ => .next s
    | none =>
      match step s with
      | .fault r => .fault r
      | .refused r => .refused r
      | .next t =>
        match t.fault with
        | some _ => .next t
        | none =>
          if t.drawPending then
            if t.q.displayWait then .next { t with drawPending := false }
            else hostRun n { t with drawPending := false }
          else hostRun n t

/-- One timer's tick: down by one, staying at 0 (spec/60_exceptions.md R163). -/
def countDown (t : Byte) : Byte := if 0 < t then t - 1 else t

/-- TICK (spec/60_exceptions.md R163): the two timers, independently. -/
def hostTick (s : State) : State := { s with dt := countDown s.dt, st := countDown s.st }

/-- KEY_DOWN(k) (spec/60_exceptions.md R164). -/
def hostKeyDown (k : KeyId) (s : State) : State := { s with keyNow := s.keyNow.set k true }

/-- KEY_UP(k) (spec/60_exceptions.md R165). -/
def hostKeyUp (k : KeyId) (s : State) : State := { s with keyNow := s.keyNow.set k false }

/-- KEY_SNAPSHOT (spec/60_exceptions.md R166). -/
def hostKeySnapshot (s : State) : State := { s with keyPrev := s.keyNow }

/-- The names of the seven quirks (spec/10_state.md R22). -/
inductive QuirkName where
  | resetVF
  | index
  | wrapScreen
  | shift
  | jump
  | displayWait
  | haltOnOOBAccess
  deriving DecidableEq, Repr

/-- `Q.name`. -/
def quirkGet (q : Quirks) : QuirkName → Bool
  | .resetVF => q.resetVF
  | .index => q.index
  | .wrapScreen => q.wrapScreen
  | .shift => q.shift
  | .jump => q.jump
  | .displayWait => q.displayWait
  | .haltOnOOBAccess => q.haltOnOOBAccess

/-- `Q.name <- b`. -/
def quirkSet (q : Quirks) (name : QuirkName) (b : Bool) : Quirks :=
  match name with
  | .resetVF => { q with resetVF := b }
  | .index => { q with index := b }
  | .wrapScreen => { q with wrapScreen := b }
  | .shift => { q with shift := b }
  | .jump => { q with jump := b }
  | .displayWait => { q with displayWait := b }
  | .haltOnOOBAccess => { q with haltOnOOBAccess := b }

/-- QUIRK_WRITE(name, b) (spec/60_exceptions.md R167). -/
def hostQuirkWrite (name : QuirkName) (b : Bool) (s : State) : State := { s with q := quirkSet s.q name b }

/-- The operations of the table of spec/60_exceptions.md R161, in its order. -/
inductive HostOp where
  | reset (quirks0 : Quirks)
  | load (bytes : List Byte)
  | step
  | run (count : Nat)
  | tick
  | keyDown (k : KeyId)
  | keyUp (k : KeyId)
  | keySnapshot
  | quirkWrite (name : QuirkName) (b : Bool)
  /-- A read-only accessor (R169): the host sees the state, which does not change. -/
  | observe
  deriving DecidableEq, Repr

/-- A cycle's result as an operation's. -/
def ofResult : Result → Except HostError State
  | .next t => .ok t
  | .fault _ => .error .stopped
  | .refused _ => .error .stopped

/-- One host operation: the new state, or an error that leaves the state as it was. -/
def applyHostOp (op : HostOp) (s : State) : Except HostError State :=
  match op with
  | .reset quirks0 => .ok (hostReset quirks0 s)
  | .load bytes => hostLoad bytes s
  | .step => ofResult (step s)
  | .run count => ofResult (hostRun count s)
  | .tick => .ok (hostTick s)
  | .keyDown k => .ok (hostKeyDown k s)
  | .keyUp k => .ok (hostKeyUp k s)
  | .keySnapshot => .ok (hostKeySnapshot s)
  | .quirkWrite name b => .ok (hostQuirkWrite name b s)
  | .observe => .ok s

/-- An execution (spec/60_exceptions.md R162): the operations one after another; one that reports an error leaves the
state unchanged (spec/70_reset_and_hazards.md R185). -/
def runOps : List HostOp → State → State
  | [], s => s
  | op :: ops, s =>
    match applyHostOp op s with
    | .ok t => runOps ops t
    | .error _ => runOps ops s

end Sys2Proof.Machine
end

