-- ==== Sys2Proof/Safety.lean ====
section
/-!
DEFINITION. What counts as a good state and a safe run, and the terms the statements use.
-/

namespace Sys2Proof.Machine

/-- Halted (spec/60_exceptions.md R157): the latch holds a fault. -/
def State.halted (s : State) : Bool := s.fault.isSome

/-- The invariant of the machine: a configuration within the spec's limits (spec/00_scope.md R5), memory in canonical form
(log entry 8), at most 16 stack entries (spec/10_state.md R19), the font's end address fixed and the program's within
memory (spec/10_state.md R27, spec/70_reset_and_hazards.md R184, decision D17). -/
structure State.Inv (s : State) : Prop where
  cfgValid : s.cfg.valid = true
  memWf : s.mem.wf s.cfg = true
  stackBound : s.stack.length ≤ 16
  fontEnd : s.fontEnd = s.cfg.fontBase + 80
  progEndLow : s.cfg.progBase ≤ s.progEnd
  progEndHigh : s.progEnd ≤ 4096

/-- `n` cycles from `s` raise no fault: the core is not halted before or after any of them. -/
def SafeRun : Nat → State → Prop
  | 0, s => s.fault = none
  | n + 1, s => s.fault = none ∧ ∃ t, step s = .next t ∧ SafeRun n t

/-- The accesses at `base + k` for `k < n` are all in bounds or wrap (spec/20_memory.md R41, R42): none of them faults. -/
def Reachable (s : State) (base : Word) (n : Nat) : Prop :=
  s.q.haltOnOOBAccess = false ∨ n = 0 ∨ base.toNat + n ≤ 4096

/-- The access at `base + k` is the first of its run to fault (spec/20_memory.md R41, R42). -/
def FirstFault (s : State) (base : Word) (k : Nat) : Prop :=
  s.q.haltOnOOBAccess = true ∧ 4096 ≤ base.toNat + k ∧ ∀ j, j < k → base.toNat + j < 4096

/-- The byte a memory access at `addr` reads when it does not fault (spec/20_memory.md R41). -/
def State.byteAt (s : State) (addr : Nat) : Byte := s.mem.read s.cfg (addr % 4096)

/-- DRW Vx,Vy,N puts a sprite bit 1 on pixel (row `py`, column `px`): some row `r` and column offset `c` of the sprite
have that pixel as their target (spec/44_display.md R131 to R134), and the bit there is 1. -/
def SpriteLights (s : State) (x y : Reg) (n : Nat) (py : Fin 32) (px : Fin 64) : Prop :=
  ∃ r c : Nat, r < n ∧ c < 8 ∧
    (if s.q.wrapScreen = true then
      py.val = ((s.readV y).toNat % 32 + r) % 32 ∧ px.val = ((s.readV x).toNat % 64 + c) % 64
    else
      py.val = (s.readV y).toNat % 32 + r ∧ px.val = (s.readV x).toNat % 64 + c) ∧
    (s.byteAt (s.i.toNat + r)).getLsbD (7 - c) = true

end Sys2Proof.Machine
end

