-- ==== Sys2Proof/Certificates/Slice0/Obligations.lean ====
section
/-!
DEFINITION. The statements for the provers. Each formalises a rule of spec/ that its docstring names, or is derived from
the rules named there. "D<n>" in a docstring is a decision that the spec marks as its own choice
(spec/92_eei_decisions.md): the model follows it (log entry 5), and a statement with a clause that its rule
marks with one is derived. In a statement about an instruction `s` is the state of the execute phase, whose PC is the
post-fetch PC (spec/10_state.md R13). `t = { s with … }` says the frame: every field of State not named keeps its value,
memory included.
-/

open Sys2Proof Sys2Proof.Machine

/-! ### Reset and the invariant -/

/-- Derived from R180 (spec/70_reset_and_hazards.md): what RESET(quirks0) leaves in every row of spec/10_state.md R33, for
every configuration within the spec's limits, every `quirks0` and from every state. Its zeros are the spec's own choice:
"Every zero above is the spec's own choice", D3, D13, D17, D34; the limits are D4 and the configuration record is log
entry 6. -/
def Obligations.ResetLeavesTheSpecsState : Prop :=
  ∀ (cfg : Config) (quirks0 : Quirks) (s t : State), cfg.valid = true →
    (s.cfg = cfg ∧ applyHostOp (.reset quirks0) s = .ok t) ∨ t = State.resetWith cfg quirks0 →
    (∀ r : Reg, t.readV r = 0) ∧ t.i = 0 ∧ t.pc.toNat = cfg.progBase ∧ t.dt = 0 ∧ t.st = 0 ∧ t.stack = [] ∧
    (∀ (py : Fin 32) (px : Fin 64), t.fb.pixel py px = false) ∧
    (∀ k : KeyId, t.keyNow[k] = false ∧ t.keyPrev[k] = false) ∧
    t.q = quirks0 ∧ t.drawPending = false ∧ t.fault = none ∧
    t.romLoaded = false ∧ t.icount = 0 ∧ t.fontEnd = cfg.fontBase + 80 ∧ t.progEnd = cfg.progBase ∧ t.cfg = cfg ∧
    (∀ j (h : j < 80), t.byteAt (cfg.fontBase + j) = cfg.font[j]) ∧
    (∀ a, a < 4096 → (a < cfg.fontBase ∨ cfg.fontBase + 80 ≤ a) → t.byteAt a = 0)

/-- Derived from R5 (spec/00_scope.md), R15, R27 (spec/10_state.md) and R180 (spec/70_reset_and_hazards.md): the
configuration `State.reset` takes has the values of R5's table and is within the spec's limits (D4). That it is this one is
log entry 6; the font bytes are the spec's own choice D28 (log entry 7), and that FONT_END and PROG_END are one past the
last byte is its choice D17 (log entry 5). -/
def Obligations.DefaultConfigurationHasTheSpecsValues : Prop :=
  State.reset.cfg.fontBase = 0x050 ∧ State.reset.cfg.progBase = 0x200 ∧ State.reset.cfg.font = fontTable ∧
  State.reset.cfg.valid = true ∧ State.reset.pc = 0x200 ∧ State.reset.fontEnd = 0x0A0 ∧ State.reset.progEnd = 0x200

/-- Derived from R28 (spec/10_state.md): no sequence of host operations, cycles and RESET among them, changes the
configuration. That it stands in State is log entry 6. -/
def Obligations.ConfigurationNeverChanges : Prop :=
  ∀ (ops : List HostOp) (s : State), (runOps ops s).cfg = s.cfg

/-- Derived from R182 (spec/70_reset_and_hazards.md): the 80 font bytes, glyph d in bytes 5 d .. 5 d + 4, as memory holds
them after reset. The bytes are the spec's own choice, D28 (log entry 7). -/
def Obligations.FontBytesAfterReset : Prop :=
  (List.range 80).map (fun j => State.reset.byteAt (0x050 + j)) =
    [0xF0, 0x90, 0x90, 0x90, 0xF0, 0x20, 0x60, 0x20, 0x20, 0x70, 0xF0, 0x10, 0xF0, 0x80, 0xF0,
     0xF0, 0x10, 0xF0, 0x10, 0xF0, 0x90, 0x90, 0xF0, 0x10, 0x10, 0xF0, 0x80, 0xF0, 0x10, 0xF0,
     0xF0, 0x80, 0xF0, 0x90, 0xF0, 0xF0, 0x10, 0x20, 0x40, 0x40, 0xF0, 0x90, 0xF0, 0x90, 0xF0,
     0xF0, 0x90, 0xF0, 0x10, 0xF0, 0xF0, 0x90, 0xF0, 0x90, 0x90, 0xE0, 0x90, 0xE0, 0x90, 0xE0,
     0xF0, 0x80, 0x80, 0x80, 0xF0, 0xE0, 0x90, 0x90, 0x90, 0xE0, 0xF0, 0x80, 0xF0, 0x80, 0xF0,
     0xF0, 0x80, 0xF0, 0x80, 0x80]

/-- Derived: the invariant holds at reset, whatever the quirks, in every configuration within the spec's limits (D4). Its
clause that memory is canonical is the model's representation (log entry 8); its clauses on FONT_END and PROG_END
(spec/10_state.md R27) rest on the one-past convention, the spec's own choice D17. -/
def Obligations.ResetMeetsInvariant : Prop :=
  ∀ (cfg : Config) (quirks0 : Quirks), cfg.valid = true → (State.resetWith cfg quirks0).Inv

/-- Derived, from every state and not only those a run reaches: a cycle keeps memory canonical, at most 16 stack entries,
the font's end and the program's end in memory. The canonical form is the model's representation (log entry 8); the
clauses on FONT_END and PROG_END (spec/10_state.md R27) rest on the one-past convention, the spec's own choice D17. -/
def Obligations.StepKeepsInvariant : Prop :=
  ∀ s t : State, s.Inv → step s = .next t → t.Inv

/-- Derived: every sequence of host operations, RUN, LOAD and RESET among them, keeps the invariant
(spec/60_exceptions.md R162: an execution is one such sequence). The canonical form of memory is the model's
representation (log entry 8); that FONT_END and PROG_END are one past the last byte and that LOAD refuses what does not fit
(spec/70_reset_and_hazards.md R185) is the spec's own choice D17. -/
def Obligations.EveryExecutionKeepsInvariant : Prop :=
  ∀ (ops : List HostOp) (s : State), s.Inv → (runOps ops s).Inv

/-! ### Encoding -/

/-- Derived from R60, R62, R64: every instruction, with every operand at every value, decodes back from its word and from
its two bytes in memory order. -/
def Obligations.DecodeEncodeRoundTrip : Prop :=
  ∀ (i : Instr) (rest : List Byte),
    decodeWord (encode i) = .ok i ∧ decode (encodeBytes i ++ rest) = .ok (i, rest)

/-- Derived: a word that decodes is the word of its instruction, so no bit of it is dropped. For an alias word this holds
by the model's choice to keep the ignored bits as an operand (log entry 11); the word an assembler emits is that of the
canonical form (spec/30_encoding.md R69). -/
def Obligations.EncodeInvertsDecode : Prop :=
  ∀ (w : Word) (i : Instr), decodeWord w = .ok i → encode i = w

/-- Derived from R64 (spec/30_encoding.md): a word selects a row exactly when `op & mask = match`; the row a word matches
is the one it decodes to, so no word matches two. -/
def Obligations.DecodeSelectsRowByMask : Prop :=
  (∀ (w : Word) (i : Instr), decodeWord w = .ok i → w &&& (rowOf i).2 = (rowOf i).1) ∧
  (∀ (w : Word) (i : Instr), w &&& (rowOf i).2 = (rowOf i).1 →
    ∃ j : Instr, decodeWord w = .ok j ∧ rowOf j = rowOf i)

/-- Derived from R70 (spec/30_encoding.md), its table without the counts: the illegal words are exactly these, and each is
rejected as a bad opcode. That families 0 and E test the low byte is the spec's own choice, D5. -/
def Obligations.IllegalWordsAreExactlyThese : Prop :=
  ∀ w : Word,
    (decodeWord w = .error (.badOpcode w) ↔
      (w.toNat / 4096 = 0x0 ∧ w.toNat % 256 ≠ 0xE0 ∧ w.toNat % 256 ≠ 0xEE) ∨
      (w.toNat / 4096 = 0x8 ∧ w.toNat % 16 ∈ [0x8, 0x9, 0xA, 0xB, 0xC, 0xD, 0xF]) ∨
      (w.toNat / 4096 = 0xE ∧ w.toNat % 256 ≠ 0x9E ∧ w.toNat % 256 ≠ 0xA1) ∨
      (w.toNat / 4096 = 0xF ∧ w.toNat % 256 ∉ [0x07, 0x0A, 0x15, 0x18, 0x1E, 0x29, 0x33, 0x55, 0x65])) ∧
    (∀ e, decodeWord w = .error e → e = .badOpcode w)

/-- Derived from R63 (spec/30_encoding.md) and the rows of R64: words written out from the spec's patterns decode to the
instructions they stand for. -/
def Obligations.WrittenWordsDecode : Prop :=
  decodeWord 0x600A = .ok (.ldImm 0 10) ∧ decodeWord 0x6105 = .ok (.ldImm 1 5) ∧
  decodeWord 0x8014 = .ok (.addReg 0 1) ∧ decodeWord 0x00E0 = .ok (.cls 0) ∧ decodeWord 0x00EE = .ok (.ret 0) ∧
  decodeWord 0xD345 = .ok (.drw 3 4 5) ∧ decodeWord 0xF165 = .ok (.loadRegs 1) ∧
  decodeWord 0xF50A = .ok (.ldVxK 5) ∧ decodeWord 0x0000 = .error (.badOpcode 0x0000)

/-- Derived from R69 (spec/30_encoding.md): an alias executes exactly as its canonical form, whose word has its ignored
bits 0. That the hardware executes aliases is the spec's own choice, D5. -/
def Obligations.AliasesExecuteAsCanonical : Prop :=
  (∀ (i : Instr) (s : State), exec i s = exec i.canonical s) ∧
  (∀ i : Instr, i.canonical.wellFormed = true ∧ (i.wellFormed = true → i.canonical = i)) ∧
  (∀ (x y : Reg) (ign : Nibble),
    (encode (Instr.seReg x y ign).canonical).toNat = (encode (.seReg x y ign)).toNat / 16 * 16 ∧
    (encode (Instr.sneReg x y ign).canonical).toNat = (encode (.sneReg x y ign)).toNat / 16 * 16 ∧
    encode (Instr.cls ign).canonical = 0x00E0 ∧ encode (Instr.ret ign).canonical = 0x00EE)

/-! ### The cycle -/

/-- Derived from R85 (spec/40_cycle.md), R81 and R156 (spec/60_exceptions.md): STEP. That a halted core ignores it is D2,
that a faulting fetch leaves PC unchanged is D8, that a faulting cycle is not counted is D18: the spec's own choices (log
entry 5). That the execute phase is given the post-fetch state and the model counts when the latch is empty after it is log
entry 13, that each fault is a next state with the latch set log entry 4. -/
def Obligations.StepIsFetchDecodeExecuteCount : Prop :=
  ∀ s : State,
    (∀ f, s.fault = some f → step s = .next s) ∧
    (s.fault = none →
      (∀ f, fetch s = .error f → step s = .next { s with fault := some f }) ∧
      (∀ op t, fetch s = .ok (op, t) →
        (∀ e, decodeWord op = .error e → step s = .next { t with fault := some (.badOpcode op) }) ∧
        (∀ i u, decodeWord op = .ok i → exec i t = .next u →
          step s = .next (if u.fault = none then { u with icount := u.icount + 1 } else u))))

/-- Derived from R81, R82, R83, R85: when the two bytes at PC decode to `i`, STEP is `exec i` on the state with PC moved
past the word, and ICOUNT counts the cycle unless it faulted: that a faulting cycle is not counted is the spec's own choice
D18, and that the model counts when the latch is empty after the execute phase is log entry 13. -/
def Obligations.StepRunsDecodedInstruction : Prop :=
  ∀ (s t : State) (i : Instr), s.fault = none → Reachable s s.pc 2 →
    decodeWord (BitVec.ofNat 16 ((s.byteAt s.pc.toNat).toNat * 256 + (s.byteAt (s.pc.toNat + 1)).toNat)) = .ok i →
    exec i { s with pc := s.pc + 2 } = .next t →
    step s = .next { t with icount := if t.fault = none then t.icount + 1 else t.icount }

/-- Derived from R81 (spec/40_cycle.md): fetch is big-endian, high byte first, advances PC by 2 modulo 2^16 after both
reads, and faults with PC unchanged; the last is the spec's own choice, D8. -/
def Obligations.FetchReadsBigEndian : Prop :=
  ∀ s : State,
    (Reachable s s.pc 2 →
      fetch s = .ok (BitVec.ofNat 16 ((s.byteAt s.pc.toNat).toNat * 256 + (s.byteAt (s.pc.toNat + 1)).toNat),
        { s with pc := BitVec.ofNat 16 ((s.pc.toNat + 2) % 65536) })) ∧
    (FirstFault s s.pc 0 → fetch s = .error (.outOfBounds s.pc.toNat) ∧
      (s.fault = none → step s = .next { s with fault := some (.outOfBounds s.pc.toNat) })) ∧
    (FirstFault s s.pc 1 → fetch s = .error (.outOfBounds (s.pc.toNat + 1)) ∧
      (s.fault = none → step s = .next { s with fault := some (.outOfBounds (s.pc.toNat + 1)) }))

/-- Derived: the model's way to place a program word (log entry 9). A 16-bit word of spec/opcode_table.json placed by
`withFetchWord` is the word the next fetch reads, and placing it changes no cell but those of PC and PC + 1; the table's
decoder reads the same instruction. -/
def Obligations.PlacedWordIsFetched : Prop :=
  ∀ (s : State) (w : Nat), s.mem.wf s.cfg = true → Reachable s s.pc 2 → w < 65536 →
    s.withFetchWord 16 w = { s with mem := (s.withFetchWord 16 w).mem } ∧
    fetch (s.withFetchWord 16 w) =
      .ok (BitVec.ofNat 16 w, { s.withFetchWord 16 w with pc := s.pc + 2 }) ∧
    (∀ a, a % 4096 ≠ s.pc.toNat % 4096 → a % 4096 ≠ (s.pc.toNat + 1) % 4096 →
      (s.withFetchWord 16 w).byteAt a = s.byteAt a) ∧
    (∀ i, decodeTableWord 16 w = some i ↔ decodeWord (BitVec.ofNat 16 w) = .ok i)

/-- R151 (spec/60_exceptions.md): BadOpcode records the word, with PC at the word's address + 2 and nothing else
changed. -/
def Obligations.BadOpcodeLeavesPostFetchState : Prop :=
  ∀ (s : State) (w : Word), s.fault = none → Reachable s s.pc 2 →
    w = BitVec.ofNat 16 ((s.byteAt s.pc.toNat).toNat * 256 + (s.byteAt (s.pc.toNat + 1)).toNat) →
    (∀ i, decodeWord w ≠ .ok i) →
    step s = .next { s with pc := s.pc + 2, fault := some (.badOpcode w) }

/-- The model's reading (log entry 4) of R155 to R157 (spec/60_exceptions.md), whose latch is the spec's own choice D2: a
fault is a next state with the latch set, so every cycle and every execute phase answers a next state. It says nothing of
the state reached: the statements about each instruction do. -/
def Obligations.EveryCycleAnswersNextState : Prop :=
  (∀ s : State, ∃ t, step s = .next t) ∧ (∀ (i : Instr) (s : State), ∃ t, exec i s = .next t)

/-- Derived from R85, R27, R156: a cycle counts in ICOUNT exactly when it raises no fault: the spec's own choice D18. That
the model counts when the latch is empty after the execute phase is log entry 13. -/
def Obligations.CycleCountsUnlessItFaults : Prop :=
  ∀ s t : State, s.fault = none → step s = .next t →
    t.icount = if t.fault = none then s.icount + 1 else s.icount

/-- Derived from R157 (spec/60_exceptions.md): a halted core ignores STEP and RUN, RESET clears the latch, and every other
operation acts as it does on a core that is not halted and leaves the latch. The latch is the spec's own choice D2, the
last clause its choice D36. -/
def Obligations.HaltedCoreOnlyResets : Prop :=
  ∀ (s : State) (f : Fault), s.fault = some f →
    step s = .next s ∧ (∀ n, hostRun n s = .next s) ∧
    (∀ quirks0, ∃ t, applyHostOp (.reset quirks0) s = .ok t ∧ t.fault = none) ∧
    (∀ op, op ∈ [HostOp.tick, .keySnapshot, .observe] ∨ (∃ k, op = .keyDown k) ∨ (∃ k, op = .keyUp k) ∨
        (∃ bytes, op = .load bytes) ∨ (∃ name b, op = .quirkWrite name b) →
      ∀ t, applyHostOp op { s with fault := none } = .ok t → applyHostOp op s = .ok { t with fault := some f })

/-- Derived from R83, R152, R153, R159: which instruction raises which fault, and when. -/
def Obligations.FaultsComeOnlyFromTheirRaisers : Prop :=
  ∀ (i : Instr) (s t : State) (f : Fault), s.fault = none → exec i s = .next t → t.fault = some f →
    (f = .stackError .overflow ∧ (∃ nnn, i = .call nnn) ∧ 16 ≤ s.stack.length) ∨
    (f = .stackError .underflow ∧ (∃ ign, i = .ret ign) ∧ s.stack = []) ∨
    (∃ a, f = .outOfBounds a ∧ s.q.haltOnOOBAccess = true ∧ 4096 ≤ a ∧
      ((∃ x y n, i = .drw x y n) ∨ (∃ x, i = .ldB x) ∨ (∃ x, i = .storeRegs x) ∨ (∃ x, i = .loadRegs x)))

/-! ### Whole-machine rules: who writes what -/

/-- Derived from R46, R127: only LD B,Vx and LD [I],Vx write memory; after any other instruction every address reads as
before. -/
def Obligations.OnlyStoresWriteMemory : Prop :=
  ∀ (i : Instr) (s t : State), exec i s = .next t →
    (∀ x, i ≠ .ldB x) → (∀ x, i ≠ .storeRegs x) → ∀ a, t.byteAt a = s.byteAt a

/-- Derived from R21, R23, R27: no instruction writes the keys, the quirks, the metadata or the configuration
(spec/10_state.md R28), which stands in State by log entry 6. -/
def Obligations.InstructionsLeaveHostState : Prop :=
  ∀ (i : Instr) (s t : State), exec i s = .next t →
    t.keyNow = s.keyNow ∧ t.keyPrev = s.keyPrev ∧ t.q = s.q ∧ t.romLoaded = s.romLoaded ∧ t.icount = s.icount ∧
    t.fontEnd = s.fontEnd ∧ t.progEnd = s.progEnd ∧ t.cfg = s.cfg

/-- Derived from R16 to R20, R26, R168: the only writers of I, DT, ST, the stack, the screen, DRAW_PENDING, and the only
instruction that draws a random byte. -/
def Obligations.SpecialStateHasOnlyItsWriters : Prop :=
  ∀ (i : Instr) (s t : State), exec i s = .next t →
    (t.i ≠ s.i → (∃ nnn, i = .ldI nnn) ∨ (∃ x, i = .addI x) ∨ (∃ x, i = .ldF x) ∨
      (s.q.index = true ∧ ((∃ x, i = .storeRegs x) ∨ (∃ x, i = .loadRegs x)))) ∧
    (t.dt ≠ s.dt → ∃ x, i = .ldDT x) ∧
    (t.st ≠ s.st → ∃ x, i = .ldST x) ∧
    (t.stack ≠ s.stack → (∃ nnn, i = .call nnn) ∨ (∃ ign, i = .ret ign)) ∧
    (t.fb ≠ s.fb → (∃ ign, i = .cls ign) ∨ (∃ x y n, i = .drw x y n)) ∧
    (t.drawPending ≠ s.drawPending → ∃ x y n, i = .drw x y n) ∧
    (t.rndIndex ≠ s.rndIndex → ∃ x nn, i = .rnd x nn)

/-- Derived from R12 (spec/10_state.md): VF changes only by an instruction of the rule's table, or by one that names V15 as
its destination. -/
def Obligations.FlagHasOnlyItsWriters : Prop :=
  ∀ (i : Instr) (s t : State), exec i s = .next t → t.readV 15 ≠ s.readV 15 →
    (s.q.resetVF = true ∧ t.readV 15 = 0 ∧
      ∃ x y, i = .orReg x y ∨ i = .andReg x y ∨ i = .xorReg x y) ∨
    ((t.readV 15 = 0 ∨ t.readV 15 = 1) ∧
      ∃ x y, i = .addReg x y ∨ i = .subReg x y ∨ i = .subnReg x y ∨ i = .shrReg x y ∨ i = .shlReg x y ∨
        ∃ n, i = .drw x y n) ∨
    (∃ nn, i = .ldImm 15 nn ∨ i = .addImm 15 nn ∨ i = .rnd 15 nn) ∨
    (∃ y, i = .ldReg 15 y ∨ i = .orReg 15 y ∨ i = .andReg 15 y ∨ i = .xorReg 15 y) ∨
    i = .ldVxDT 15 ∨ i = .ldVxK 15 ∨ i = .loadRegs 15

/-! ### Memory accessors -/

/-- R41 (spec/20_memory.md): MemRead wraps modulo 4096 or faults with the untruncated address. -/
def Obligations.MemReadWrapsOrFaults : Prop :=
  ∀ (s : State) (a : Nat),
    (s.q.haltOnOOBAccess = true → 4096 ≤ a → memRead s a = .error (.outOfBounds a)) ∧
    ((s.q.haltOnOOBAccess = false ∨ a < 4096) → memRead s a = .ok (s.mem.read s.cfg (a % 4096)))

/-- R42 (spec/20_memory.md): MemWrite faults with the untruncated address, or sets exactly the cell at the address modulo
4096; what is read back is what was written, at every alias of the cell. -/
def Obligations.MemWriteSetsOneCell : Prop :=
  ∀ (s : State) (a : Nat) (b : Byte), s.mem.wf s.cfg = true →
    (s.q.haltOnOOBAccess = true → 4096 ≤ a → memWrite s a b = .error (.outOfBounds a)) ∧
    ((s.q.haltOnOOBAccess = false ∨ a < 4096) →
      ∃ t, memWrite s a b = .ok t ∧ t = { s with mem := t.mem } ∧ memRead t a = .ok b ∧
        (∀ c, c % 4096 = a % 4096 → t.byteAt c = b) ∧
        (∀ c, c % 4096 ≠ a % 4096 → t.byteAt c = s.byteAt c))

/-- Derived: the canonical form (log entry 8) is canonical. Two memories that read alike are equal. -/
def Obligations.CanonicalMemoryIsUnique : Prop :=
  ∀ (cfg : Config) (m m' : Memory), m.wf cfg = true → m'.wf cfg = true →
    (∀ a, a < 4096 → m.read cfg a = m'.read cfg a) → m = m'

/-! ### Control transfer -/

/-- Derived from R90 (spec/41_control_flow.md): RET pops the newest entry into PC, or faults on the empty stack; that the
fault leaves everything else unchanged is the spec's own choice, D22. -/
def Obligations.ReturnPopsNewestEntry : Prop :=
  ∀ (ign : Nibble) (s : State),
    (s.stack = [] → exec (.ret ign) s = .next { s with fault := some (.stackError .underflow) }) ∧
    (∀ older a, s.stack = older ++ [a] → exec (.ret ign) s = .next { s with stack := older, pc := a })

/-- Derived from R91, R97 (spec/41_control_flow.md): JP NNN; JP V0,NNN adds V[0], or V[top nibble of NNN] under the `jump`
quirk. That the sum is not reduced modulo 4096 is the spec's own choice, D29. -/
def Obligations.JumpsSetPC : Prop :=
  ∀ (nnn : Addr12) (s : State),
    (∃ t, exec (.jp nnn) s = .next t ∧ t = { s with pc := t.pc } ∧ t.pc.toNat = nnn.toNat) ∧
    (∃ t, exec (.jpV0 nnn) s = .next t ∧ t = { s with pc := t.pc } ∧
      (s.q.jump = false → t.pc.toNat = nnn.toNat + (s.readV 0).toNat) ∧
      (∀ x : Reg, s.q.jump = true → x.val = nnn.toNat / 256 → t.pc.toNat = nnn.toNat + (s.readV x).toNat))

/-- Derived from R92 (spec/41_control_flow.md): CALL pushes the post-fetch PC and jumps, or faults when 16 entries are
held; that the fault leaves everything else unchanged is the spec's own choice, D22. -/
def Obligations.CallPushesReturnAddress : Prop :=
  ∀ (nnn : Addr12) (s : State),
    (s.stack.length < 16 → ∃ t, exec (.call nnn) s = .next t ∧
      t = { s with stack := s.stack ++ [s.pc], pc := t.pc } ∧ t.pc.toNat = nnn.toNat) ∧
    (s.stack.length = 16 → exec (.call nnn) s = .next { s with fault := some (.stackError .overflow) })

/-- Derived from R90, R92: RET undoes CALL, from any state of the callee that left the stack as CALL made it. -/
def Obligations.ReturnUndoesCall : Prop :=
  ∀ (nnn : Addr12) (ign : Nibble) (s t u : State), s.stack.length < 16 → exec (.call nnn) s = .next t →
    u.stack = t.stack → exec (.ret ign) u = .next { u with stack := s.stack, pc := s.pc }

/-- R93, R94, R95, R96 (spec/41_control_flow.md): the four skips add 2 to PC modulo 2^16 when their condition holds. -/
def Obligations.SkipsAddTwoWhenTrue : Prop :=
  ∀ (x y : Reg) (nn : Byte) (ign : Nibble) (s : State),
    exec (.seImm x nn) s = .next { s with pc := if s.readV x = nn then s.pc + 2 else s.pc } ∧
    exec (.sneImm x nn) s = .next { s with pc := if s.readV x = nn then s.pc else s.pc + 2 } ∧
    exec (.seReg x y ign) s = .next { s with pc := if s.readV x = s.readV y then s.pc + 2 else s.pc } ∧
    exec (.sneReg x y ign) s = .next { s with pc := if s.readV x = s.readV y then s.pc else s.pc + 2 }

/-! ### Registers and arithmetic -/

/-- R104, R105, R106 (spec/42_alu.md): load literal, add literal without a flag, copy. V15 is an ordinary destination. -/
def Obligations.LoadsAndAddLiteralWriteVx : Prop :=
  ∀ (x y : Reg) (nn : Byte) (s : State),
    (∃ t, exec (.ldImm x nn) s = .next t ∧ t = { s with v := t.v } ∧ t.readV x = nn ∧
      ∀ r, r ≠ x → t.readV r = s.readV r) ∧
    (∃ t, exec (.addImm x nn) s = .next t ∧ t = { s with v := t.v } ∧
      (t.readV x).toNat = ((s.readV x).toNat + nn.toNat) % 256 ∧ ∀ r, r ≠ x → t.readV r = s.readV r) ∧
    (∃ t, exec (.ldReg x y) s = .next t ∧ t = { s with v := t.v } ∧ t.readV x = s.readV y ∧
      ∀ r, r ≠ x → t.readV r = s.readV r)

/-- R107, R108, R109 (spec/42_alu.md): OR, AND, XOR, bit by bit; VF ends 0 under `resetVF`, X = 15 included, else it is an
ordinary register. -/
def Obligations.LogicWritesVxThenClearsVF : Prop :=
  ∀ (x y : Reg) (s : State) (i : Instr) (f : Bool → Bool → Bool),
    (i = .orReg x y ∧ f = or) ∨ (i = .andReg x y ∧ f = and) ∨ (i = .xorReg x y ∧ f = xor) →
    ∃ t, exec i s = .next t ∧ t = { s with v := t.v } ∧
      (s.q.resetVF = true → t.readV 15 = 0) ∧
      ((s.q.resetVF = false ∨ x ≠ 15) → ∀ k, k < 8 →
        (t.readV x).getLsbD k = f ((s.readV x).getLsbD k) ((s.readV y).getLsbD k)) ∧
      (∀ r, r ≠ x → (s.q.resetVF = false ∨ r ≠ 15) → t.readV r = s.readV r)

/-- R110 (spec/42_alu.md): ADD Vx,Vy writes the sum modulo 256, then VF the carry; the flag wins when X = 15. -/
def Obligations.AddWritesSumThenCarry : Prop :=
  ∀ (x y : Reg) (s : State), ∃ t, exec (.addReg x y) s = .next t ∧ t = { s with v := t.v } ∧
    (t.readV 15).toNat = (if (s.readV x).toNat + (s.readV y).toNat > 255 then 1 else 0) ∧
    (x ≠ 15 → (t.readV x).toNat = ((s.readV x).toNat + (s.readV y).toNat) % 256) ∧
    (∀ r, r ≠ x → r ≠ 15 → t.readV r = s.readV r)

/-- Derived from R111, R113 (spec/42_alu.md): SUB and SUBN write the difference modulo 256, then VF = 1 exactly when no
borrow occurred; the flag wins when X = 15. That equal operands do not borrow is the spec's own choice, D20. -/
def Obligations.SubtractWritesDifferenceThenNoBorrow : Prop :=
  ∀ (x y : Reg) (s : State) (i : Instr) (a b : Nat),
    (i = .subReg x y ∧ a = (s.readV x).toNat ∧ b = (s.readV y).toNat) ∨
    (i = .subnReg x y ∧ a = (s.readV y).toNat ∧ b = (s.readV x).toNat) →
    ∃ t, exec i s = .next t ∧ t = { s with v := t.v } ∧
      (t.readV 15).toNat = (if a ≥ b then 1 else 0) ∧
      (x ≠ 15 → (t.readV x).toNat = if a ≥ b then a - b else a + 256 - b) ∧
      (∀ r, r ≠ x → r ≠ 15 → t.readV r = s.readV r)

/-- R112, R114 (spec/42_alu.md): the shifts by one bit, on VX under the `shift` quirk and else on VY, then VF = the bit
shifted out; the flag wins when X = 15. -/
def Obligations.ShiftsWriteResultThenBitOut : Prop :=
  ∀ (x y : Reg) (s : State) (src : Nat),
    (s.q.shift = true → src = (s.readV x).toNat) → (s.q.shift = false → src = (s.readV y).toNat) →
    (∃ t, exec (.shrReg x y) s = .next t ∧ t = { s with v := t.v } ∧
      (t.readV 15).toNat = src % 2 ∧ (x ≠ 15 → (t.readV x).toNat = src / 2) ∧
      (∀ r, r ≠ x → r ≠ 15 → t.readV r = s.readV r)) ∧
    (∃ t, exec (.shlReg x y) s = .next t ∧ t = { s with v := t.v } ∧
      (t.readV 15).toNat = src / 128 ∧ (x ≠ 15 → (t.readV x).toNat = src * 2 % 256) ∧
      (∀ r, r ≠ x → r ≠ 15 → t.readV r = s.readV r))

/-- Derived from R115 (spec/42_alu.md): RND writes the drawn byte under the mask, whatever the byte is, and the next
execution draws the next byte. The draw is a free input by the spec's own choice D11; it is the model's free value
`Config.rndByte` at the counter `rndIndex` (log entry 2), and the statement holds for every value of both. -/
def Obligations.RandomByteUnderMask : Prop :=
  ∀ (x : Reg) (nn : Byte) (s : State), ∃ t, exec (.rnd x nn) s = .next t ∧
    t = { s with v := t.v, rndIndex := s.rndIndex + 1 } ∧
    (∀ k, (t.readV x).getLsbD k = ((Config.rndByte s.rndIndex).getLsbD k && nn.getLsbD k)) ∧
    (∀ k, nn.getLsbD k = false → (t.readV x).getLsbD k = false) ∧
    (∀ r, r ≠ x → t.readV r = s.readV r)

/-! ### Index register and memory -/

/-- Derived from R121, R122, R123 (spec/43_index_memory.md): LD I,NNN; ADD I,Vx modulo 2^16; LD F,Vx = FONT_BASE + 5 *
low nibble. No flag and no memory access. The width of the sums is the spec's own choice, D29; FONT_BASE is the
configuration's (log entry 6). -/
def Obligations.IndexRegisterWrites : Prop :=
  ∀ (nnn : Addr12) (x : Reg) (s : State),
    (∃ t, exec (.ldI nnn) s = .next t ∧ t = { s with i := t.i } ∧ t.i.toNat = nnn.toNat) ∧
    (∃ t, exec (.addI x) s = .next t ∧ t = { s with i := t.i } ∧
      t.i.toNat = (s.i.toNat + (s.readV x).toNat) % 65536) ∧
    (∃ t, exec (.ldF x) s = .next t ∧ t = { s with i := t.i } ∧
      t.i.toNat = (s.cfg.fontBase + (s.readV x).toNat % 16 * 5) % 65536)

/-- R124 (spec/43_index_memory.md): LD B,Vx stores hundreds, tens, ones at I, I + 1, I + 2, in that order; at the first
access out of bounds it faults and the digits before it stay. -/
def Obligations.DecimalDigitsStored : Prop :=
  ∀ (x : Reg) (s : State), s.mem.wf s.cfg = true →
    (Reachable s s.i 3 → ∃ t, exec (.ldB x) s = .next t ∧ t = { s with mem := t.mem } ∧
      (t.byteAt s.i.toNat).toNat = (s.readV x).toNat / 100 ∧
      (t.byteAt (s.i.toNat + 1)).toNat = (s.readV x).toNat / 10 % 10 ∧
      (t.byteAt (s.i.toNat + 2)).toNat = (s.readV x).toNat % 10 ∧
      (∀ a, (∀ k, k < 3 → a % 4096 ≠ (s.i.toNat + k) % 4096) → t.byteAt a = s.byteAt a)) ∧
    (∀ k, k < 3 → FirstFault s s.i k → ∃ t, exec (.ldB x) s = .next t ∧
      t = { s with mem := t.mem, fault := some (.outOfBounds (s.i.toNat + k)) } ∧
      (0 < k → (t.byteAt s.i.toNat).toNat = (s.readV x).toNat / 100) ∧
      (1 < k → (t.byteAt (s.i.toNat + 1)).toNat = (s.readV x).toNat / 10 % 10) ∧
      (∀ a, (∀ j, j < k → a % 4096 ≠ (s.i.toNat + j) % 4096) → t.byteAt a = s.byteAt a))

/-- Derived from R125 (spec/43_index_memory.md): LD [I],Vx stores V0..VX at I .. I + X; I moves by X + 1 under `index`; at
the first access out of bounds, element k, it faults with the k bytes before it written and I moved by k under `index`
(the last is the spec's own choice, D10). -/
def Obligations.RegistersStored : Prop :=
  ∀ (x : Reg) (s : State), s.mem.wf s.cfg = true →
    (Reachable s s.i (x.val + 1) → ∃ t, exec (.storeRegs x) s = .next t ∧ t = { s with mem := t.mem, i := t.i } ∧
      t.i.toNat = (if s.q.index = true then (s.i.toNat + x.val + 1) % 65536 else s.i.toNat) ∧
      (∀ r : Reg, r ≤ x → t.byteAt (s.i.toNat + r.val) = s.readV r) ∧
      (∀ a, (∀ r : Reg, r ≤ x → a % 4096 ≠ (s.i.toNat + r.val) % 4096) → t.byteAt a = s.byteAt a)) ∧
    (∀ k : Reg, k ≤ x → FirstFault s s.i k.val → ∃ t, exec (.storeRegs x) s = .next t ∧
      t = { s with mem := t.mem, i := t.i, fault := some (.outOfBounds (s.i.toNat + k.val)) } ∧
      t.i.toNat = (if s.q.index = true then (s.i.toNat + k.val) % 65536 else s.i.toNat) ∧
      (∀ r : Reg, r < k → t.byteAt (s.i.toNat + r.val) = s.readV r) ∧
      (∀ a, (∀ r : Reg, r < k → a % 4096 ≠ (s.i.toNat + r.val) % 4096) → t.byteAt a = s.byteAt a))

/-- Derived from R126 (spec/43_index_memory.md): LD Vx,[I] loads V0..VX from I .. I + X, VF included when X = 15; I moves by
X + 1 under `index`; at the first access out of bounds, element k, it faults with V0..V(k-1) loaded and I moved by k under
`index` (the last is the spec's own choice, D10). -/
def Obligations.RegistersLoaded : Prop :=
  ∀ (x : Reg) (s : State),
    (Reachable s s.i (x.val + 1) → ∃ t, exec (.loadRegs x) s = .next t ∧ t = { s with v := t.v, i := t.i } ∧
      t.i.toNat = (if s.q.index = true then (s.i.toNat + x.val + 1) % 65536 else s.i.toNat) ∧
      (∀ r : Reg, r ≤ x → t.readV r = s.byteAt (s.i.toNat + r.val)) ∧
      (∀ r : Reg, x < r → t.readV r = s.readV r)) ∧
    (∀ k : Reg, k ≤ x → FirstFault s s.i k.val → ∃ t, exec (.loadRegs x) s = .next t ∧
      t = { s with v := t.v, i := t.i, fault := some (.outOfBounds (s.i.toNat + k.val)) } ∧
      t.i.toNat = (if s.q.index = true then (s.i.toNat + k.val) % 65536 else s.i.toNat) ∧
      (∀ r : Reg, r < k → t.readV r = s.byteAt (s.i.toNat + r.val)) ∧
      (∀ r : Reg, k ≤ r → t.readV r = s.readV r))

/-- Derived from R125, R126: what LD [I],Vx stored, LD Vx,[I] at the same I loads back, whatever the registers held in
between. -/
def Obligations.StoreThenLoadRestoresRegisters : Prop :=
  ∀ (x : Reg) (s t u w : State), s.mem.wf s.cfg = true → Reachable s s.i (x.val + 1) →
    exec (.storeRegs x) s = .next t → u.mem = t.mem → u.cfg = s.cfg → u.q = s.q → u.i = s.i →
    exec (.loadRegs x) u = .next w → ∀ r : Reg, r ≤ x → w.readV r = s.readV r

/-! ### Display -/

/-- R130 (spec/44_display.md): CLS turns every pixel off and changes nothing else. -/
def Obligations.ClearScreenTurnsPixelsOff : Prop :=
  ∀ (ign : Nibble) (s : State), ∃ t, exec (.cls ign) s = .next t ∧ t = { s with fb := t.fb } ∧
    ∀ (py : Fin 32) (px : Fin 64), t.fb.pixel py px = false

/-- Derived from R131 to R135 (spec/44_display.md): a DRW whose bytes can all be read XORs exactly the pixels its sprite
lights, sets VF to 1 exactly when one of them was on, and sets DRAW_PENDING. That a clipped row is still read is the spec's
own choice D12, that a clipped pixel takes no part in the collision its choice D37. -/
def Obligations.DrawXorsSpriteAndFlagsCollision : Prop :=
  ∀ (x y : Reg) (n : Nibble) (s : State), Reachable s s.i n.toNat →
    ∃ t, exec (.drw x y n) s = .next t ∧ t = { s with fb := t.fb, v := t.v, drawPending := true } ∧
      (∀ (py : Fin 32) (px : Fin 64), SpriteLights s x y n.toNat py px → t.fb.pixel py px = !s.fb.pixel py px) ∧
      (∀ (py : Fin 32) (px : Fin 64), ¬ SpriteLights s x y n.toNat py px → t.fb.pixel py px = s.fb.pixel py px) ∧
      ((∃ py px, SpriteLights s x y n.toNat py px ∧ s.fb.pixel py px = true) → t.readV 15 = 1) ∧
      ((¬ ∃ py px, SpriteLights s x y n.toNat py px ∧ s.fb.pixel py px = true) → t.readV 15 = 0) ∧
      (∀ r, r ≠ 15 → t.readV r = s.readV r)

/-- Derived from R136 (spec/44_display.md): a DRW whose row k is the first out of bounds keeps rows 0..k-1 drawn and writes
neither VF nor DRAW_PENDING: the spec's own choice, D12. -/
def Obligations.FaultingDrawKeepsRowsBefore : Prop :=
  ∀ (x y : Reg) (n : Nibble) (k : Nat) (s : State), k < n.toNat → FirstFault s s.i k →
    ∃ t, exec (.drw x y n) s = .next t ∧
      t = { s with fb := t.fb, fault := some (.outOfBounds (s.i.toNat + k)) } ∧
      (∀ (py : Fin 32) (px : Fin 64), SpriteLights s x y k py px → t.fb.pixel py px = !s.fb.pixel py px) ∧
      (∀ (py : Fin 32) (px : Fin 64), ¬ SpriteLights s x y k py px → t.fb.pixel py px = s.fb.pixel py px)

/-- Derived from R137 (a) (spec/44_display.md): DRW with N = 0 draws nothing, clears VF and sets DRAW_PENDING; no byte is
read, so it completes in every state. The spec's own choice, D25. -/
def Obligations.EmptyDrawOnlyClearsVF : Prop :=
  ∀ (x y : Reg) (s : State), ∃ t, exec (.drw x y 0) s = .next t ∧
    t = { s with v := t.v, drawPending := true } ∧ t.readV 15 = 0 ∧ ∀ r, r ≠ 15 → t.readV r = s.readV r

/-- Derived from R135 (spec/44_display.md), the source's property: two identical draws restore the screen, and on a region
that was clear the second reports a collision exactly when the sprite is not empty. The second draw may name other
registers that hold the same coordinates (VF, which the first draw writes, may have been one). -/
def Obligations.SecondDrawRestoresScreen : Prop :=
  ∀ (x y x' y' : Reg) (n : Nibble) (s t u : State), Reachable s s.i n.toNat →
    exec (.drw x y n) s = .next t → t.readV x' = s.readV x → t.readV y' = s.readV y →
    exec (.drw x' y' n) t = .next u →
    u.fb = s.fb ∧
    ((∀ py px, SpriteLights s x y n.toNat py px → s.fb.pixel py px = false) →
      ((∃ py px, SpriteLights s x y n.toNat py px) → u.readV 15 = 1) ∧
      ((¬ ∃ py px, SpriteLights s x y n.toNat py px) → u.readV 15 = 0))

/-! ### Keys and timers -/

/-- Derived from R140, R141 (spec/45_keys_timers.md): SKP and SKNP test KEY_NOW of the key the low nibble of V[X] names.
That it is KEY_NOW is the spec's own choice, D14. -/
def Obligations.KeySkipsTestKeyNow : Prop :=
  ∀ (x : Reg) (k : KeyId) (s : State), k.val = (s.readV x).toNat % 16 →
    exec (.skp x) s = .next { s with pc := if s.keyNow[k] = true then s.pc + 2 else s.pc } ∧
    exec (.sknp x) s = .next { s with pc := if s.keyNow[k] = true then s.pc else s.pc + 2 }

/-- Derived from R142 (spec/45_keys_timers.md): LD Vx,K loads the lowest key with a release edge, or moves PC back by 2,
modulo 2^16 by the spec's own choice D33, and changes nothing else. -/
def Obligations.KeyWaitLoadsLowestReleased : Prop :=
  ∀ (x : Reg) (s : State),
    ((∀ k : KeyId, ¬ (s.keyPrev[k] = true ∧ s.keyNow[k] = false)) →
      exec (.ldVxK x) s = .next { s with pc := s.pc - 2 }) ∧
    (∀ k : KeyId, s.keyPrev[k] = true → s.keyNow[k] = false →
      (∀ j : KeyId, j < k → ¬ (s.keyPrev[j] = true ∧ s.keyNow[j] = false)) →
      ∃ t, exec (.ldVxK x) s = .next t ∧ t = { s with v := t.v } ∧ (t.readV x).toNat = k.val ∧
        ∀ r, r ≠ x → t.readV r = s.readV r)

/-- Derived from R87, R142: a waiting LD Vx,K is a complete cycle that leaves the whole state as it was but for ICOUNT. That
PC is rewound modulo 2^16 is the spec's own choice D33, that the waiting cycle counts in ICOUNT D33 and D18. -/
def Obligations.WaitingKeyCycleOnlyCounts : Prop :=
  ∀ (x : Reg) (s : State), s.fault = none → Reachable s s.pc 2 →
    (s.byteAt s.pc.toNat).toNat = 0xF0 + x.val → s.byteAt (s.pc.toNat + 1) = 0x0A →
    (∀ k : KeyId, ¬ (s.keyPrev[k] = true ∧ s.keyNow[k] = false)) →
    step s = .next { s with icount := s.icount + 1 }

/-- R143, R145 (spec/45_keys_timers.md), and the write of R144: the timer reads and writes. -/
def Obligations.TimerTransfers : Prop :=
  ∀ (x : Reg) (s : State),
    (∃ t, exec (.ldVxDT x) s = .next t ∧ t = { s with v := t.v } ∧ t.readV x = s.dt ∧
      ∀ r, r ≠ x → t.readV r = s.readV r) ∧
    exec (.ldDT x) s = .next { s with dt := s.readV x } ∧
    exec (.ldST x) s = .next { s with st := s.readV x }

/-! ### Host operations -/

/-- Derived from R163, R164, R165, R166, R167 (spec/60_exceptions.md): TICK, KEY_DOWN, KEY_UP, KEY_SNAPSHOT, QUIRK_WRITE.
That a timer at 0 stays at 0 is the spec's own choice, D16. -/
def Obligations.HostInputsWriteOnlyTheirState : Prop :=
  ∀ s : State,
    (∃ t, applyHostOp .tick s = .ok t ∧ t = { s with dt := t.dt, st := t.st } ∧
      t.dt.toNat = s.dt.toNat - 1 ∧ t.st.toNat = s.st.toNat - 1) ∧
    (∀ k : KeyId, ∃ t, applyHostOp (.keyDown k) s = .ok t ∧ t = { s with keyNow := t.keyNow } ∧
      t.keyNow[k] = true ∧ ∀ j : KeyId, j ≠ k → t.keyNow[j] = s.keyNow[j]) ∧
    (∀ k : KeyId, ∃ t, applyHostOp (.keyUp k) s = .ok t ∧ t = { s with keyNow := t.keyNow } ∧
      t.keyNow[k] = false ∧ ∀ j : KeyId, j ≠ k → t.keyNow[j] = s.keyNow[j]) ∧
    (∃ t, applyHostOp .keySnapshot s = .ok t ∧ t = { s with keyPrev := s.keyNow }) ∧
    (∀ name b, ∃ t, applyHostOp (.quirkWrite name b) s = .ok t ∧ t = { s with q := t.q } ∧
      quirkGet t.q name = b ∧ ∀ other, other ≠ name → quirkGet t.q other = quirkGet s.q other)

/-- Derived from R166, R146: after a snapshot no key shows a release edge until some later KEY_UP, whatever other host
operations follow, cycles, LOAD and RESET among them; a key held at the snapshot and then released does. -/
def Obligations.SnapshotClearsReleaseEdges : Prop :=
  ∀ (s : State) (ops : List HostOp) (k : KeyId),
    ((∀ j : KeyId, HostOp.keyUp j ∉ ops) → (runOps (.keySnapshot :: ops) s).releasedKey = none) ∧
    (runOps [.keyDown k, .keySnapshot, .keyUp k] s).releasedKey = some k

/-- Derived from R184, R185 (spec/70_reset_and_hazards.md): LOAD copies the bytes verbatim from PROG_BASE up and touches
memory and metadata only; more bytes than MEM_SIZE - PROG_BASE (3584 with the default) change nothing and report an error.
The refusal and PROG_END one past the last byte are the spec's own choice, D17; the configuration record is log entry 6,
the canonical form of memory log entry 8. -/
def Obligations.LoadCopiesProgram : Prop :=
  ∀ (bytes : List Byte) (s : State), s.cfg.valid = true → s.mem.wf s.cfg = true →
    (bytes.length ≤ 4096 - s.cfg.progBase → ∃ t, applyHostOp (.load bytes) s = .ok t ∧
      t = { s with mem := t.mem, progEnd := s.cfg.progBase + bytes.length, romLoaded := true } ∧
      (∀ j (h : j < bytes.length), t.byteAt (s.cfg.progBase + j) = bytes[j]) ∧
      (∀ a, a < 4096 → (a < s.cfg.progBase ∨ s.cfg.progBase + bytes.length ≤ a) → t.byteAt a = s.byteAt a)) ∧
    (4096 - s.cfg.progBase < bytes.length → applyHostOp (.load bytes) s = .error (.romTooLong bytes.length) ∧
      runOps [.load bytes] s = s)

/-- Derived from R86 (spec/40_cycle.md): RUN(count), cycle by cycle. When the draw flag is consumed is the spec's own choice
D13, that a fault drops the rest of the batch D35. -/
def Obligations.RunIsCyclesUntilFaultOrDraw : Prop :=
  ∀ (s t : State) (n : Nat),
    hostRun 0 s = .next s ∧
    (∀ f, s.fault = some f → hostRun n s = .next s) ∧
    (s.fault = none → step s = .next t →
      (∀ f, t.fault = some f → hostRun (n + 1) s = .next t) ∧
      (t.fault = none → t.drawPending = false → hostRun (n + 1) s = hostRun n t) ∧
      (t.fault = none → t.drawPending = true → t.q.displayWait = true →
        hostRun (n + 1) s = .next { t with drawPending := false }) ∧
      (t.fault = none → t.drawPending = true → t.q.displayWait = false →
        hostRun (n + 1) s = hostRun n { t with drawPending := false }))

/-- Derived from R86: RUN always ends, and DRAW_PENDING never stays set across a RUN of at least one cycle that raised no
fault. When the flag is consumed is the spec's own choice D13. -/
def Obligations.RunConsumesDrawFlag : Prop :=
  ∀ (n : Nat) (s : State), ∃ t, hostRun n s = .next t ∧
    (0 < n → s.fault = none → t.fault = none → t.drawPending = false)

/-- Derived from R86, R194: without `displayWait` a RUN may be cut anywhere, RUN(m + n) being RUN(m) then RUN(n). -/
def Obligations.RunSplitsWithoutDisplayWait : Prop :=
  ∀ (m n : Nat) (s t : State), s.q.displayWait = false → hostRun m s = .next t → hostRun (m + n) s = hostRun n t
end

