-- ==== Sys2Proof/Laws/State.lean ====
section
/-!
SUPPORT. One lemma per field per named update of State, true by rfl, so that no proof unfolds a record update; then the
register file's two read laws and the conditional updates as plain record updates.
-/

namespace Sys2Proof.Machine.State

variable (s : State)

/-! ### `writeV` -/

@[simp] theorem writeV_v (x : Reg) (b : Byte) : (s.writeV x b).v = s.v.set x b := rfl
@[simp] theorem writeV_i (x : Reg) (b : Byte) : (s.writeV x b).i = s.i := rfl
@[simp] theorem writeV_pc (x : Reg) (b : Byte) : (s.writeV x b).pc = s.pc := rfl
@[simp] theorem writeV_dt (x : Reg) (b : Byte) : (s.writeV x b).dt = s.dt := rfl
@[simp] theorem writeV_st (x : Reg) (b : Byte) : (s.writeV x b).st = s.st := rfl
@[simp] theorem writeV_stack (x : Reg) (b : Byte) : (s.writeV x b).stack = s.stack := rfl
@[simp] theorem writeV_mem (x : Reg) (b : Byte) : (s.writeV x b).mem = s.mem := rfl
@[simp] theorem writeV_fb (x : Reg) (b : Byte) : (s.writeV x b).fb = s.fb := rfl
@[simp] theorem writeV_keyNow (x : Reg) (b : Byte) : (s.writeV x b).keyNow = s.keyNow := rfl
@[simp] theorem writeV_keyPrev (x : Reg) (b : Byte) : (s.writeV x b).keyPrev = s.keyPrev := rfl
@[simp] theorem writeV_q (x : Reg) (b : Byte) : (s.writeV x b).q = s.q := rfl
@[simp] theorem writeV_drawPending (x : Reg) (b : Byte) : (s.writeV x b).drawPending = s.drawPending := rfl
@[simp] theorem writeV_fault (x : Reg) (b : Byte) : (s.writeV x b).fault = s.fault := rfl
@[simp] theorem writeV_romLoaded (x : Reg) (b : Byte) : (s.writeV x b).romLoaded = s.romLoaded := rfl
@[simp] theorem writeV_icount (x : Reg) (b : Byte) : (s.writeV x b).icount = s.icount := rfl
@[simp] theorem writeV_fontEnd (x : Reg) (b : Byte) : (s.writeV x b).fontEnd = s.fontEnd := rfl
@[simp] theorem writeV_progEnd (x : Reg) (b : Byte) : (s.writeV x b).progEnd = s.progEnd := rfl
@[simp] theorem writeV_cfg (x : Reg) (b : Byte) : (s.writeV x b).cfg = s.cfg := rfl
@[simp] theorem writeV_rndIndex (x : Reg) (b : Byte) : (s.writeV x b).rndIndex = s.rndIndex := rfl

/-! ### `setPC` -/

@[simp] theorem setPC_v (a : Word) : (s.setPC a).v = s.v := rfl
@[simp] theorem setPC_i (a : Word) : (s.setPC a).i = s.i := rfl
@[simp] theorem setPC_pc (a : Word) : (s.setPC a).pc = a := rfl
@[simp] theorem setPC_dt (a : Word) : (s.setPC a).dt = s.dt := rfl
@[simp] theorem setPC_st (a : Word) : (s.setPC a).st = s.st := rfl
@[simp] theorem setPC_stack (a : Word) : (s.setPC a).stack = s.stack := rfl
@[simp] theorem setPC_mem (a : Word) : (s.setPC a).mem = s.mem := rfl
@[simp] theorem setPC_fb (a : Word) : (s.setPC a).fb = s.fb := rfl
@[simp] theorem setPC_keyNow (a : Word) : (s.setPC a).keyNow = s.keyNow := rfl
@[simp] theorem setPC_keyPrev (a : Word) : (s.setPC a).keyPrev = s.keyPrev := rfl
@[simp] theorem setPC_q (a : Word) : (s.setPC a).q = s.q := rfl
@[simp] theorem setPC_drawPending (a : Word) : (s.setPC a).drawPending = s.drawPending := rfl
@[simp] theorem setPC_fault (a : Word) : (s.setPC a).fault = s.fault := rfl
@[simp] theorem setPC_romLoaded (a : Word) : (s.setPC a).romLoaded = s.romLoaded := rfl
@[simp] theorem setPC_icount (a : Word) : (s.setPC a).icount = s.icount := rfl
@[simp] theorem setPC_fontEnd (a : Word) : (s.setPC a).fontEnd = s.fontEnd := rfl
@[simp] theorem setPC_progEnd (a : Word) : (s.setPC a).progEnd = s.progEnd := rfl
@[simp] theorem setPC_cfg (a : Word) : (s.setPC a).cfg = s.cfg := rfl
@[simp] theorem setPC_rndIndex (a : Word) : (s.setPC a).rndIndex = s.rndIndex := rfl

/-! ### `setI` -/

@[simp] theorem setI_v (a : Word) : (s.setI a).v = s.v := rfl
@[simp] theorem setI_i (a : Word) : (s.setI a).i = a := rfl
@[simp] theorem setI_pc (a : Word) : (s.setI a).pc = s.pc := rfl
@[simp] theorem setI_dt (a : Word) : (s.setI a).dt = s.dt := rfl
@[simp] theorem setI_st (a : Word) : (s.setI a).st = s.st := rfl
@[simp] theorem setI_stack (a : Word) : (s.setI a).stack = s.stack := rfl
@[simp] theorem setI_mem (a : Word) : (s.setI a).mem = s.mem := rfl
@[simp] theorem setI_fb (a : Word) : (s.setI a).fb = s.fb := rfl
@[simp] theorem setI_keyNow (a : Word) : (s.setI a).keyNow = s.keyNow := rfl
@[simp] theorem setI_keyPrev (a : Word) : (s.setI a).keyPrev = s.keyPrev := rfl
@[simp] theorem setI_q (a : Word) : (s.setI a).q = s.q := rfl
@[simp] theorem setI_drawPending (a : Word) : (s.setI a).drawPending = s.drawPending := rfl
@[simp] theorem setI_fault (a : Word) : (s.setI a).fault = s.fault := rfl
@[simp] theorem setI_romLoaded (a : Word) : (s.setI a).romLoaded = s.romLoaded := rfl
@[simp] theorem setI_icount (a : Word) : (s.setI a).icount = s.icount := rfl
@[simp] theorem setI_fontEnd (a : Word) : (s.setI a).fontEnd = s.fontEnd := rfl
@[simp] theorem setI_progEnd (a : Word) : (s.setI a).progEnd = s.progEnd := rfl
@[simp] theorem setI_cfg (a : Word) : (s.setI a).cfg = s.cfg := rfl
@[simp] theorem setI_rndIndex (a : Word) : (s.setI a).rndIndex = s.rndIndex := rfl

/-! ### `raise` -/

@[simp] theorem raise_v (f : Fault) : (s.raise f).v = s.v := rfl
@[simp] theorem raise_i (f : Fault) : (s.raise f).i = s.i := rfl
@[simp] theorem raise_pc (f : Fault) : (s.raise f).pc = s.pc := rfl
@[simp] theorem raise_dt (f : Fault) : (s.raise f).dt = s.dt := rfl
@[simp] theorem raise_st (f : Fault) : (s.raise f).st = s.st := rfl
@[simp] theorem raise_stack (f : Fault) : (s.raise f).stack = s.stack := rfl
@[simp] theorem raise_mem (f : Fault) : (s.raise f).mem = s.mem := rfl
@[simp] theorem raise_fb (f : Fault) : (s.raise f).fb = s.fb := rfl
@[simp] theorem raise_keyNow (f : Fault) : (s.raise f).keyNow = s.keyNow := rfl
@[simp] theorem raise_keyPrev (f : Fault) : (s.raise f).keyPrev = s.keyPrev := rfl
@[simp] theorem raise_q (f : Fault) : (s.raise f).q = s.q := rfl
@[simp] theorem raise_drawPending (f : Fault) : (s.raise f).drawPending = s.drawPending := rfl
@[simp] theorem raise_fault (f : Fault) : (s.raise f).fault = some f := rfl
@[simp] theorem raise_romLoaded (f : Fault) : (s.raise f).romLoaded = s.romLoaded := rfl
@[simp] theorem raise_icount (f : Fault) : (s.raise f).icount = s.icount := rfl
@[simp] theorem raise_fontEnd (f : Fault) : (s.raise f).fontEnd = s.fontEnd := rfl
@[simp] theorem raise_progEnd (f : Fault) : (s.raise f).progEnd = s.progEnd := rfl
@[simp] theorem raise_cfg (f : Fault) : (s.raise f).cfg = s.cfg := rfl
@[simp] theorem raise_rndIndex (f : Fault) : (s.raise f).rndIndex = s.rndIndex := rfl

/-! ### `push` -/

@[simp] theorem push_v (a : Word) : (s.push a).v = s.v := rfl
@[simp] theorem push_i (a : Word) : (s.push a).i = s.i := rfl
@[simp] theorem push_pc (a : Word) : (s.push a).pc = s.pc := rfl
@[simp] theorem push_dt (a : Word) : (s.push a).dt = s.dt := rfl
@[simp] theorem push_st (a : Word) : (s.push a).st = s.st := rfl
@[simp] theorem push_stack (a : Word) : (s.push a).stack = s.stack ++ [a] := rfl
@[simp] theorem push_mem (a : Word) : (s.push a).mem = s.mem := rfl
@[simp] theorem push_fb (a : Word) : (s.push a).fb = s.fb := rfl
@[simp] theorem push_keyNow (a : Word) : (s.push a).keyNow = s.keyNow := rfl
@[simp] theorem push_keyPrev (a : Word) : (s.push a).keyPrev = s.keyPrev := rfl
@[simp] theorem push_q (a : Word) : (s.push a).q = s.q := rfl
@[simp] theorem push_drawPending (a : Word) : (s.push a).drawPending = s.drawPending := rfl
@[simp] theorem push_fault (a : Word) : (s.push a).fault = s.fault := rfl
@[simp] theorem push_romLoaded (a : Word) : (s.push a).romLoaded = s.romLoaded := rfl
@[simp] theorem push_icount (a : Word) : (s.push a).icount = s.icount := rfl
@[simp] theorem push_fontEnd (a : Word) : (s.push a).fontEnd = s.fontEnd := rfl
@[simp] theorem push_progEnd (a : Word) : (s.push a).progEnd = s.progEnd := rfl
@[simp] theorem push_cfg (a : Word) : (s.push a).cfg = s.cfg := rfl
@[simp] theorem push_rndIndex (a : Word) : (s.push a).rndIndex = s.rndIndex := rfl

/-! ### Register reads -/

@[simp] theorem readV_setPC (a : Word) (x : Reg) : (s.setPC a).readV x = s.readV x := rfl
@[simp] theorem readV_setI (a : Word) (x : Reg) : (s.setI a).readV x = s.readV x := rfl
@[simp] theorem readV_raise (f : Fault) (x : Reg) : (s.raise f).readV x = s.readV x := rfl
@[simp] theorem readV_push (a : Word) (x : Reg) : (s.push a).readV x = s.readV x := rfl

/-- Reading a register after a write (spec/10_state.md R10). -/
theorem readV_writeV (x y : Reg) (b : Byte) : (s.writeV x b).readV y = if x = y then b else s.readV y := by
  simp [readV, writeV, Vector.getElem_set, Fin.ext_iff]

@[simp] theorem readV_writeV_same (x : Reg) (b : Byte) : (s.writeV x b).readV x = b := by
  simp [readV_writeV]

theorem readV_writeV_other {x y : Reg} (h : x ≠ y) (b : Byte) : (s.writeV x b).readV y = s.readV y := by
  simp [readV_writeV, h]

/-- Two states with equal registers have equal register files. -/
theorem v_ext {s t : State} (h : ∀ x : Reg, s.readV x = t.readV x) : s.v = t.v :=
  Vector.ext fun k hk => h ⟨k, hk⟩

/-! ### Conditional updates as record updates -/

theorem skipIf_eq (c : Bool) : s.skipIf c = { s with pc := if c then s.pc + 2 else s.pc } := by
  cases c <;> rfl

theorem bumpI_eq (bump : Bool) (base : Word) (k : Nat) :
    s.bumpI bump base k = { s with i := if bump then BitVec.ofNat 16 (base.toNat + k + 1) else s.i } := by
  cases bump <;> rfl

theorem writeWithFlag_eq (x : Reg) (r : Byte) (f : Bool) :
    s.writeWithFlag x r f = { s with v := (s.v.set x r).set 15 (flagByte f) } := rfl

theorem writeLogic_eq (x : Reg) (r : Byte) :
    s.writeLogic x r = { s with v := if s.q.resetVF then (s.v.set x r).set 15 0 else s.v.set x r } := by
  unfold writeLogic
  split <;> rfl

theorem countCycle_eq :
    s.countCycle = { s with icount := if s.fault = none then s.icount + 1 else s.icount } := by
  rcases s with ⟨_, _, _, _, _, _, _, _, _, _, _, _, _ | _, _, _, _, _, _, _⟩ <;> simp [countCycle]

/-- VF after a result and its flag is the flag, whatever the destination (spec/42_alu.md R100). -/
@[simp] theorem readV_writeWithFlag_vf (x : Reg) (r : Byte) (f : Bool) :
    (s.writeWithFlag x r f).readV 15 = flagByte f := by
  simp [writeWithFlag]

/-- The other registers after a result and its flag. -/
theorem readV_writeWithFlag (x y : Reg) (r : Byte) (f : Bool) (h : y ≠ 15) :
    (s.writeWithFlag x r f).readV y = if x = y then r else s.readV y := by
  simp [writeWithFlag, readV_writeV, Ne.symm h]

end Sys2Proof.Machine.State
end

