-- ==== Sys2Proof/Laws/Memory.lean ====
section
/-!
SUPPORT. The laws of the cell list: what a write makes each cell read as, and that every operation keeps the canonical
form.
-/

namespace Sys2Proof.Machine.Memory

variable {cfg : Config}

/-! ### Reads after writes -/

@[simp] theorem read_nil (a : Nat) : read cfg [] a = resetByte cfg a := rfl

theorem read_cons (b : Nat) (w : Byte) (m : Memory) (a : Nat) :
    read cfg ((b, w) :: m) a = if a = b then w else read cfg m a := rfl

/-- A cell below every listed address reads as it did at reset. -/
theorem read_of_below {low : Nat} {m : Memory} (h : wfFrom cfg low m = true) {a : Nat} (ha : a < low) :
    read cfg m a = resetByte cfg a := by
  induction m generalizing low with
  | nil => rfl
  | cons c m ih =>
    obtain ⟨b, w⟩ := c
    simp only [wfFrom, Bool.and_eq_true, decide_eq_true_eq] at h
    rw [read_cons, if_neg (by omega)]
    exact ih h.2 (by omega)

/-- The canonical form from a bound up holds from every lower bound up. -/
theorem wfFrom_mono {low low' : Nat} {m : Memory} (hl : low' ≤ low) (h : wfFrom cfg low m = true) :
    wfFrom cfg low' m = true := by
  cases m with
  | nil => rfl
  | cons c m =>
    obtain ⟨b, w⟩ := c
    simp only [wfFrom, Bool.and_eq_true, decide_eq_true_eq] at h ⊢
    exact ⟨⟨⟨by omega, h.1.1.2⟩, h.1.2⟩, h.2⟩

/-- A cell put before a list whose addresses lie above it. -/
theorem read_consCell {a : Nat} {w : Byte} {m : Memory} (h : wfFrom cfg (a + 1) m = true) (c : Nat) :
    read cfg (consCell cfg a w m) c = if c = a then w else read cfg m c := by
  unfold consCell
  split
  · rename_i hw
    split
    · rename_i hc
      rw [read_of_below h (by omega), hc, hw]
    · rfl
  · rfl

theorem wfFrom_consCell {low a : Nat} {w : Byte} {m : Memory} (hl : low ≤ a) (ha : a < 4096)
    (h : wfFrom cfg (a + 1) m = true) : wfFrom cfg low (consCell cfg a w m) = true := by
  unfold consCell
  split
  · exact wfFrom_mono (by omega) h
  · rename_i hw
    simp [wfFrom, hl, ha, hw, h]

/-- A write keeps the canonical form. -/
theorem wfFrom_write {low a : Nat} {w : Byte} {m : Memory} (hl : low ≤ a) (ha : a < 4096)
    (h : wfFrom cfg low m = true) : wfFrom cfg low (write cfg m a w) = true := by
  induction m generalizing low with
  | nil => exact wfFrom_consCell hl ha rfl
  | cons c m ih =>
    obtain ⟨b, x⟩ := c
    have h' := h
    simp only [wfFrom, Bool.and_eq_true, decide_eq_true_eq] at h
    unfold write
    split
    · refine wfFrom_consCell hl ha ?_
      simp only [wfFrom, Bool.and_eq_true, decide_eq_true_eq]
      exact ⟨⟨⟨by omega, h.1.1.2⟩, h.1.2⟩, h.2⟩
    · split
      · rename_i hab
        exact wfFrom_consCell hl ha (hab ▸ h.2)
      · simp only [wfFrom, Bool.and_eq_true, decide_eq_true_eq]
        exact ⟨h.1, ih (by omega) h.2⟩

/-- Reading any cell after a write, in canonical memory. -/
theorem read_write_from {low a : Nat} {w : Byte} {m : Memory} (h : wfFrom cfg low m = true) (c : Nat) :
    read cfg (write cfg m a w) c = if c = a then w else read cfg m c := by
  induction m generalizing low with
  | nil => exact read_consCell rfl c
  | cons d m ih =>
    obtain ⟨b, x⟩ := d
    simp only [wfFrom, Bool.and_eq_true, decide_eq_true_eq] at h
    unfold write
    split
    · refine read_consCell ?_ c
      simp only [wfFrom, Bool.and_eq_true, decide_eq_true_eq]
      exact ⟨⟨⟨by omega, h.1.1.2⟩, h.1.2⟩, h.2⟩
    · split
      · rename_i hab
        subst hab
        rw [read_consCell h.2, read_cons]
        split <;> rfl
      · rw [read_cons, read_cons, ih h.2]
        split
        · rename_i hcb
          rw [if_neg (by omega)]
        · rfl

/-- Read after write (spec/20_memory.md R42, R47). -/
theorem read_write {m : Memory} (h : m.wf cfg = true) (a : Nat) (w : Byte) (c : Nat) :
    read cfg (write cfg m a w) c = if c = a then w else read cfg m c :=
  read_write_from h c

theorem wf_write {m : Memory} (h : m.wf cfg = true) {a : Nat} (ha : a < 4096) (w : Byte) :
    (write cfg m a w).wf cfg = true :=
  wfFrom_write (Nat.zero_le a) ha h

/-- LOAD's writes keep the canonical form when they fit (spec/70_reset_and_hazards.md R184). -/
theorem wf_writeBytes {m : Memory} (h : m.wf cfg = true) (base : Nat) (ws : List Byte)
    (hb : base + ws.length ≤ 4096) : (writeBytes cfg m base ws).wf cfg = true := by
  induction ws generalizing m base with
  | nil => exact h
  | cons w ws ih =>
    simp only [List.length_cons] at hb
    exact ih (wf_write h (by omega) w) (base + 1) (by omega)

/-- What LOAD leaves in each cell: the byte at its offset, or what the cell held. -/
theorem read_writeBytes {m : Memory} (h : m.wf cfg = true) (base : Nat) (ws : List Byte)
    (hb : base + ws.length ≤ 4096) (c : Nat) :
    read cfg (writeBytes cfg m base ws) c =
      if base ≤ c ∧ c < base + ws.length then ws.getD (c - base) 0 else read cfg m c := by
  induction ws generalizing m base with
  | nil => simp [writeBytes]
  | cons w ws ih =>
    simp only [List.length_cons] at hb
    rw [writeBytes, ih (wf_write h (by omega) w) (base + 1) (by omega), read_write h]
    by_cases hc : c = base
    · subst hc
      simp
    · rw [if_neg hc]
      by_cases hr : base + 1 ≤ c ∧ c < base + 1 + ws.length
      · rw [if_pos hr, if_pos (by simp only [List.length_cons]; omega), show c - base = c - (base + 1) + 1 by omega,
          List.getD_cons_succ]
      · rw [if_neg hr, if_neg (by simp only [List.length_cons]; omega)]

end Sys2Proof.Machine.Memory
end

