-- ==== Sys2Proof/Laws/Ops.lean ====
section
/-!
SUPPORT. What each shared operation can do, said once: the accessors, fetch, and the byte-by-byte transfers.
-/

namespace Sys2Proof.Machine

/-! ### Accessors -/

theorem State.outOfBounds_eq_true {s : State} {a : Nat} :
    s.outOfBounds a = true ↔ s.q.haltOnOOBAccess = true ∧ 4096 ≤ a := by
  simp [State.outOfBounds]

theorem State.outOfBounds_eq_false {s : State} {a : Nat} :
    s.outOfBounds a = false ↔ s.q.haltOnOOBAccess = false ∨ a < 4096 := by
  cases h : s.q.haltOnOOBAccess <;> simp [State.outOfBounds, h]

/-- MemRead completes exactly in bounds or without the quirk (spec/20_memory.md R41). -/
theorem memRead_eq_ok {s : State} {a : Nat} {b : Byte} :
    memRead s a = .ok b ↔ (s.q.haltOnOOBAccess = false ∨ a < 4096) ∧ b = s.byteAt a := by
  unfold memRead State.byteAt
  cases h : s.outOfBounds a
  · have hin := State.outOfBounds_eq_false.mp h
    simp only [Bool.false_eq_true, if_false, Except.ok.injEq, hin, true_and]
    exact eq_comm
  · have := State.outOfBounds_eq_true.mp h
    simp [this.1, Nat.not_lt.mpr this.2]

/-- MemRead faults exactly out of bounds under the quirk (spec/20_memory.md R41). -/
theorem memRead_eq_error {s : State} {a : Nat} {f : Fault} :
    memRead s a = .error f ↔ (s.q.haltOnOOBAccess = true ∧ 4096 ≤ a) ∧ f = .outOfBounds a := by
  unfold memRead
  cases h : s.outOfBounds a
  · have := State.outOfBounds_eq_false.mp h
    simp
    rintro h1 h2
    simp [h1, Nat.not_lt.mpr h2] at this
  · simp [State.outOfBounds_eq_true.mp h, eq_comm]

/-- MemWrite completes exactly in bounds or without the quirk (spec/20_memory.md R42). -/
theorem memWrite_eq_ok {s t : State} {a : Nat} {b : Byte} :
    memWrite s a b = .ok t ↔
      (s.q.haltOnOOBAccess = false ∨ a < 4096) ∧ t = { s with mem := s.mem.write s.cfg (a % 4096) b } := by
  unfold memWrite
  cases h : s.outOfBounds a
  · have hin := State.outOfBounds_eq_false.mp h
    simp only [Bool.false_eq_true, if_false, Except.ok.injEq, hin, true_and]
    exact eq_comm
  · have := State.outOfBounds_eq_true.mp h
    simp [this.1, Nat.not_lt.mpr this.2]

/-- MemWrite faults exactly out of bounds under the quirk (spec/20_memory.md R42). -/
theorem memWrite_eq_error {s : State} {a : Nat} {b : Byte} {f : Fault} :
    memWrite s a b = .error f ↔ (s.q.haltOnOOBAccess = true ∧ 4096 ≤ a) ∧ f = .outOfBounds a := by
  unfold memWrite
  cases h : s.outOfBounds a
  · have := State.outOfBounds_eq_false.mp h
    simp
    rintro h1 h2
    simp [h1, Nat.not_lt.mpr h2] at this
  · simp [State.outOfBounds_eq_true.mp h, eq_comm]

/-- Each access of a run that is reachable completes. -/
theorem Reachable.inBounds {s : State} {base : Word} {n k : Nat} (h : Reachable s base n) (hk : k < n) :
    s.q.haltOnOOBAccess = false ∨ base.toNat + k < 4096 := by
  rcases h with h | h | h
  · exact .inl h
  · omega
  · exact .inr (by omega)

/-! ### Storing -/

/-- What a store transfer can do, complete or not: it changes memory and `I` only, and keeps memory canonical. -/
theorem storeBytes_frame (bump : Bool) (base : Word) (k : Nat) (bs : List Byte) (s : State) :
    (∃ t, storeBytes bump base k bs s = .done t ∧ t = { s with mem := t.mem, i := t.i } ∧
      (bump = false → t.i = s.i) ∧ (s.mem.wf s.cfg = true → t.mem.wf t.cfg = true)) ∨
    (∃ t a, storeBytes bump base k bs s = .raised (.outOfBounds a) t ∧ t = { s with mem := t.mem, i := t.i } ∧
      (bump = false → t.i = s.i) ∧ (s.mem.wf s.cfg = true → t.mem.wf t.cfg = true) ∧
      s.q.haltOnOOBAccess = true ∧ 4096 ≤ a) := by
  induction bs generalizing k s with
  | nil => exact .inl ⟨s, rfl, rfl, fun _ => rfl, id⟩
  | cons b bs ih =>
    unfold storeBytes
    cases hw : memWrite s (effAddr base k) b with
    | error f =>
      obtain ⟨⟨h1, h2⟩, rfl⟩ := memWrite_eq_error.mp hw
      exact .inr ⟨s, _, rfl, rfl, fun _ => rfl, id, h1, h2⟩
    | ok u =>
      obtain ⟨-, rfl⟩ := memWrite_eq_ok.mp hw
      have hwf := fun h : s.mem.wf s.cfg = true =>
        Memory.wf_write h (Nat.mod_lt (effAddr base k) (by decide : 0 < 4096)) b
      rcases ih (k + 1) (State.bumpI { s with mem := s.mem.write s.cfg (effAddr base k % 4096) b } bump base k) with
        ⟨t, h, ht, hi, hm⟩ | ⟨t, a, h, ht, hi, hm, hq⟩
      · refine .inl ⟨t, h, ?_, ?_, ?_⟩
        · rw [ht]; simp [State.bumpI_eq]
        · rintro rfl; rw [hi rfl]; rfl
        · exact fun h0 => hm (by simpa [State.bumpI_eq] using hwf h0)
      · refine .inr ⟨t, a, h, ?_, ?_, ?_, ?_⟩
        · rw [ht]; simp [State.bumpI_eq]
        · rintro rfl; rw [hi rfl]; rfl
        · exact fun h0 => hm (by simpa [State.bumpI_eq] using hwf h0)
        · simpa [State.bumpI_eq] using hq

/-- A store transfer none of whose accesses faults: every byte lands at its address, every other cell keeps its byte, and
`I` moves past the last byte when `bump`. -/
theorem storeBytes_done (bump : Bool) (base : Word) (k : Nat) (bs : List Byte) (s : State) (hwf : s.mem.wf s.cfg = true)
    (hlen : bs.length ≤ 4096)
    (hin : ∀ j, j < bs.length → s.q.haltOnOOBAccess = false ∨ base.toNat + (k + j) < 4096) :
    ∃ t, storeBytes bump base k bs s = .done t ∧ t.mem.wf t.cfg = true ∧
      t = { s with mem := t.mem,
                   i := if bump = true ∧ bs ≠ [] then BitVec.ofNat 16 (base.toNat + k + bs.length) else s.i } ∧
      (∀ j (h : j < bs.length), t.byteAt (base.toNat + (k + j)) = bs[j]) ∧
      (∀ a, (∀ j, j < bs.length → a % 4096 ≠ (base.toNat + (k + j)) % 4096) → t.byteAt a = s.byteAt a) := by
  induction bs generalizing k s with
  | nil => exact ⟨s, rfl, hwf, by simp, by simp, fun _ _ => rfl⟩
  | cons b bs ih =>
    simp only [List.length_cons] at hlen hin
    unfold storeBytes
    have hw : memWrite s (effAddr base k) b = .ok { s with mem := s.mem.write s.cfg ((base.toNat + k) % 4096) b } :=
      memWrite_eq_ok.mpr ⟨by simpa [effAddr] using hin 0 (by omega), rfl⟩
    rw [hw]
    have hm := Memory.wf_write hwf (Nat.mod_lt (base.toNat + k) (by decide : 0 < 4096)) b
    obtain ⟨t, h, htw, ht, hb, ho⟩ :=
      ih (k + 1) (State.bumpI { s with mem := s.mem.write s.cfg ((base.toNat + k) % 4096) b } bump base k)
        (by simpa [State.bumpI_eq] using hm) (by omega)
        (fun j hj => by
          rcases hin (j + 1) (by omega) with h | h
          · exact .inl (by simpa [State.bumpI_eq] using h)
          · exact .inr (by omega))
    refine ⟨t, h, htw, ?_, ?_, ?_⟩
    · rw [ht]
      simp only [State.bumpI_eq]
      cases bump <;> cases bs <;> simp [Nat.add_assoc, Nat.add_comm 1]
    · intro j hj
      cases j with
      | zero =>
        rw [show base.toNat + (k + 0) = base.toNat + k by omega, ho _ fun j hj => by omega]
        simp only [State.byteAt, State.bumpI_eq]
        rw [Memory.read_write hwf]
        simp
      | succ j =>
        rw [show base.toNat + (k + (j + 1)) = base.toNat + (k + 1 + j) by omega,
          hb j (by simp only [List.length_cons] at hj; omega)]
        rfl
    · intro a ha
      rw [ho a fun j hj => by
        have := ha (j + 1) (by simp only [List.length_cons]; omega)
        rwa [show base.toNat + (k + 1 + j) = base.toNat + (k + (j + 1)) by omega]]
      simp only [State.byteAt, State.bumpI_eq]
      rw [Memory.read_write hwf, if_neg (by simpa using ha 0 (by simp))]

/-- A store transfer whose access `m` is the first to fault ends there, with the effects of the transfer of the bytes
before it (spec/60_exceptions.md R156). -/
theorem storeBytes_raised (bump : Bool) (base : Word) (k m : Nat) (bs : List Byte) (s : State) (hm : m < bs.length)
    (hq : s.q.haltOnOOBAccess = true) (hout : 4096 ≤ base.toNat + (k + m))
    (hin : ∀ j, j < m → base.toNat + (k + j) < 4096) :
    ∃ t, storeBytes bump base k bs s = .raised (.outOfBounds (base.toNat + (k + m))) t ∧
      storeBytes bump base k (bs.take m) s = .done t := by
  induction bs generalizing k m s with
  | nil => simp at hm
  | cons b bs ih =>
    cases m with
    | zero =>
      refine ⟨s, ?_, rfl⟩
      unfold storeBytes
      rw [memWrite_eq_error.mpr ⟨⟨hq, by simpa [effAddr] using hout⟩, rfl⟩]
      simp [effAddr]
    | succ m =>
      have hw : memWrite s (effAddr base k) b = .ok { s with mem := s.mem.write s.cfg ((base.toNat + k) % 4096) b } :=
        memWrite_eq_ok.mpr ⟨.inr (by simpa [effAddr] using hin 0 (by omega)), rfl⟩
      obtain ⟨t, h1, h2⟩ :=
        ih (k + 1) m (State.bumpI { s with mem := s.mem.write s.cfg ((base.toNat + k) % 4096) b } bump base k)
          (by simpa using hm) (by simpa [State.bumpI_eq] using hq) (by omega) (fun j hj => by
            have := hin (j + 1) (by omega)
            omega)
      refine ⟨t, ?_, ?_⟩
      · unfold storeBytes
        rw [hw]
        simpa [show base.toNat + (k + 1 + m) = base.toNat + (k + (m + 1)) by omega] using h1
      · rw [List.take_succ_cons]
        unfold storeBytes
        rw [hw]
        exact h2

/-! ### Loading -/

/-- What a load transfer can do, complete or not: it changes registers and `I` only. -/
theorem loadBytes_frame (bump : Bool) (base : Word) (rs : List Reg) (s : State) :
    (∃ t, loadBytes bump base rs s = .done t ∧ t = { s with v := t.v, i := t.i } ∧ (bump = false → t.i = s.i) ∧
      ∀ r, r ∉ rs → t.readV r = s.readV r) ∨
    (∃ t a, loadBytes bump base rs s = .raised (.outOfBounds a) t ∧ t = { s with v := t.v, i := t.i } ∧
      (bump = false → t.i = s.i) ∧ (∀ r, r ∉ rs → t.readV r = s.readV r) ∧
      s.q.haltOnOOBAccess = true ∧ 4096 ≤ a) := by
  induction rs generalizing s with
  | nil => exact .inl ⟨s, rfl, rfl, fun _ => rfl, fun _ _ => rfl⟩
  | cons r rs ih =>
    unfold loadBytes
    cases hr : memRead s (effAddr base r.val) with
    | error f =>
      obtain ⟨⟨h1, h2⟩, rfl⟩ := memRead_eq_error.mp hr
      exact .inr ⟨s, _, rfl, rfl, fun _ => rfl, fun _ _ => rfl, h1, h2⟩
    | ok b =>
      have hv : ∀ r', r' ∉ r :: rs → ((s.writeV r b).bumpI bump base r.val).readV r' = s.readV r' := fun r' h' => by
        rw [State.bumpI_eq]
        exact State.readV_writeV_other s (fun h => h' (by simp [h])) b
      rcases ih ((s.writeV r b).bumpI bump base r.val) with ⟨t, h, ht, hi, hu⟩ | ⟨t, a, h, ht, hi, hu, hq⟩
      · refine .inl ⟨t, h, ?_, ?_, fun r' h' => ?_⟩
        · rw [ht]; simp [State.bumpI_eq]
        · rintro rfl; rw [hi rfl]; rfl
        · rw [hu r' (fun h => h' (by simp [h])), hv r' h']
      · refine .inr ⟨t, a, h, ?_, ?_, fun r' h' => ?_, ?_⟩
        · rw [ht]; simp [State.bumpI_eq]
        · rintro rfl; rw [hi rfl]; rfl
        · rw [hu r' (fun h => h' (by simp [h])), hv r' h']
        · simpa [State.bumpI_eq] using hq

/-- A load transfer of distinct registers none of whose accesses faults: every register of the list takes the byte at its
address, and `I` moves past the last one when `bump`. -/
theorem loadBytes_done (bump : Bool) (base : Word) (rs : List Reg) (s : State) (hnd : rs.Nodup)
    (hin : ∀ r, r ∈ rs → s.q.haltOnOOBAccess = false ∨ base.toNat + r.val < 4096) :
    ∃ t, loadBytes bump base rs s = .done t ∧
      t = { s with v := t.v,
                   i := if bump then (rs.getLast?.elim s.i fun r => BitVec.ofNat 16 (base.toNat + r.val + 1)) else s.i } ∧
      (∀ r, r ∈ rs → t.readV r = s.byteAt (base.toNat + r.val)) ∧ (∀ r, r ∉ rs → t.readV r = s.readV r) := by
  induction rs generalizing s with
  | nil => exact ⟨s, rfl, by simp, by simp, fun _ _ => rfl⟩
  | cons r rs ih =>
    rw [List.nodup_cons] at hnd
    unfold loadBytes
    rw [show memRead s (effAddr base r.val) = _ from memRead_eq_ok.mpr ⟨hin r (by simp), rfl⟩]
    obtain ⟨t, h, ht, hb, ho⟩ :=
      ih ((s.writeV r (s.byteAt (effAddr base r.val))).bumpI bump base r.val) hnd.2
        (fun r' h' => by simpa [State.bumpI_eq] using hin r' (by simp [h']))
    refine ⟨t, h, ?_, fun r' h' => ?_, fun r' h' => ?_⟩
    · rw [ht]
      simp only [State.bumpI_eq]
      cases bump
      · simp
      · cases rs with
        | nil => simp
        | cons r2 rs => simp [List.getLast?_cons]
    · rcases List.mem_cons.mp h' with rfl | h'
      · rw [ho r' hnd.1, State.bumpI_eq]
        exact State.readV_writeV_same s r' _
      · rw [hb r' h', State.bumpI_eq]
        rfl
    · rw [ho r' (fun h => h' (by simp [h])), State.bumpI_eq]
      exact State.readV_writeV_other s (fun h => h' (by simp [h])) _

/-- A load transfer whose register `r` is the first with an access that faults ends there, with the registers before it
loaded (spec/60_exceptions.md R156). -/
theorem loadBytes_raised (bump : Bool) (base : Word) (pre : List Reg) (r : Reg) (post : List Reg) (s : State)
    (hq : s.q.haltOnOOBAccess = true) (hout : 4096 ≤ base.toNat + r.val)
    (hin : ∀ r', r' ∈ pre → base.toNat + r'.val < 4096) :
    ∃ t, loadBytes bump base (pre ++ r :: post) s = .raised (.outOfBounds (base.toNat + r.val)) t ∧
      loadBytes bump base pre s = .done t := by
  induction pre generalizing s with
  | nil =>
    refine ⟨s, ?_, rfl⟩
    unfold loadBytes
    simp only [List.nil_append]
    rw [show memRead s (effAddr base r.val) = _ from memRead_eq_error.mpr ⟨⟨hq, hout⟩, rfl⟩]
    rfl
  | cons r0 pre ih =>
    have hr : memRead s (effAddr base r0.val) = .ok (s.byteAt (base.toNat + r0.val)) :=
      memRead_eq_ok.mpr ⟨.inr (hin r0 (by simp)), rfl⟩
    obtain ⟨t, h1, h2⟩ := ih ((s.writeV r0 (s.byteAt (base.toNat + r0.val))).bumpI bump base r0.val)
      (by simpa [State.bumpI_eq] using hq) (fun r' h' => hin r' (by simp [h']))
    refine ⟨t, ?_, ?_⟩
    · rw [List.cons_append]
      unfold loadBytes
      rw [hr]
      exact h1
    · unfold loadBytes
      rw [hr]
      exact h2

/-- `regsUpTo x` is V0..VX. -/
theorem mem_regsUpTo : ∀ x r : Reg, r ∈ regsUpTo x ↔ r ≤ x := by decide

theorem regsUpTo_nodup : ∀ x : Reg, (regsUpTo x).Nodup := by decide

theorem regsUpTo_getLast : ∀ x : Reg, (regsUpTo x).getLast? = some x := by decide

/-- V0..VX cut at Vk. -/
theorem regsUpTo_split : ∀ x k : Reg, k ≤ x →
    regsUpTo x = (List.finRange 16).take k.val ++ k :: (regsUpTo x).drop (k.val + 1) := by decide

theorem regsUpTo_length (x : Reg) : (regsUpTo x).length = x.val + 1 := by
  have := x.isLt
  simp only [regsUpTo, List.length_take, List.length_finRange]
  omega

theorem regsUpTo_getElem (x : Reg) (j : Nat) (h : j < (regsUpTo x).length) :
    (regsUpTo x)[j] = ⟨j, by have := x.isLt; rw [regsUpTo_length] at h; omega⟩ := by
  simp [regsUpTo]

theorem mem_take_finRange : ∀ k r : Reg, r ∈ (List.finRange 16).take k.val ↔ r < k := by decide

/-! ### Fetch -/

/-- What a fetch can do (spec/40_cycle.md R81): a word with PC advanced and nothing else changed, or an out-of-bounds
fault at PC or PC + 1. -/
theorem fetch_cases (s : State) :
    (∃ w, fetch s = .ok (w, s.setPC (s.pc + 2))) ∨
    (∃ a, fetch s = .error (.outOfBounds a) ∧ s.q.haltOnOOBAccess = true ∧ 4096 ≤ a) := by
  unfold fetch
  cases h1 : memRead s s.pc.toNat with
  | error f =>
    obtain ⟨⟨hq, ha⟩, rfl⟩ := memRead_eq_error.mp h1
    exact .inr ⟨_, rfl, hq, ha⟩
  | ok hi =>
    cases h2 : memRead s (s.pc.toNat + 1) with
    | error f =>
      obtain ⟨⟨hq, ha⟩, rfl⟩ := memRead_eq_error.mp h2
      exact .inr ⟨_, rfl, hq, ha⟩
    | ok lo => exact .inl ⟨_, rfl⟩

/-- The two bytes of a word (spec/30_encoding.md R62). -/
theorem wordOfBytes_eq (hi lo : Byte) : wordOfBytes hi lo = BitVec.ofNat 16 (hi.toNat * 256 + lo.toNat) := by
  apply BitVec.eq_of_toNat_eq
  have h : (wordOfBytes hi lo).toNat = hi.toNat <<< 8 ||| lo.toNat := BitVec.toNat_append hi lo
  have hhi := hi.isLt
  have hlo := lo.isLt
  rw [h, ← Nat.shiftLeft_add_eq_or_of_lt hlo, Nat.shiftLeft_eq, BitVec.toNat_ofNat]
  omega

/-- A fetch none of whose bytes faults (spec/40_cycle.md R81). -/
theorem fetch_eq_ok {s : State} (h : Reachable s s.pc 2) :
    fetch s = .ok (BitVec.ofNat 16 ((s.byteAt s.pc.toNat).toNat * 256 + (s.byteAt (s.pc.toNat + 1)).toNat),
      s.setPC (s.pc + 2)) := by
  unfold fetch
  rw [show memRead s s.pc.toNat = .ok (s.byteAt s.pc.toNat) from memRead_eq_ok.mpr ⟨h.inBounds (k := 0) (by omega), rfl⟩,
    show memRead s (s.pc.toNat + 1) = .ok (s.byteAt (s.pc.toNat + 1)) from
      memRead_eq_ok.mpr ⟨h.inBounds (k := 1) (by omega), rfl⟩]
  simp [wordOfBytes_eq]

/-! ### Keys -/

/-- No release edge (spec/45_keys_timers.md R146). -/
theorem State.releasedKey_eq_none {s : State} :
    s.releasedKey = none ↔ ∀ k : KeyId, ¬ (s.keyPrev[k] = true ∧ s.keyNow[k] = false) := by
  simp [State.releasedKey, List.find?_eq_none]

/-- The lowest release edge (spec/45_keys_timers.md R146). -/
theorem State.releasedKey_eq_some {s : State} {k : KeyId} (h1 : s.keyPrev[k] = true) (h2 : s.keyNow[k] = false)
    (h3 : ∀ j : KeyId, j < k → ¬ (s.keyPrev[j] = true ∧ s.keyNow[j] = false)) : s.releasedKey = some k := by
  unfold State.releasedKey
  rw [List.find?_eq_some_iff_getElem]
  refine ⟨by simp [h1, h2], k.val, by simp, by simp, fun j hj => ?_⟩
  have h := h3 ⟨j, by omega⟩ hj
  simp only [Fin.getElem_fin, not_and, Bool.not_eq_false] at h
  cases hp : s.keyPrev[j] <;> simp_all

end Sys2Proof.Machine
end

