-- ==== Sys2Proof/Laws/Display.lean ====
section
/-!
SUPPORT. The sprite blitter (spec/44_display.md R131) said once: which pixels one row, and the rows of a sprite, light,
and when they collide.
-/

namespace Sys2Proof.Machine

/-! ### Pixels -/

theorem Screen.pixel_setPixel (fb : Screen) (y y' : Fin 32) (x x' : Fin 64) (b : Bool) :
    (fb.setPixel y x b).pixel y' x' = if y = y' ∧ x = x' then b else fb.pixel y' x' := by
  unfold Screen.pixel Screen.setPixel
  simp only [Fin.getElem_fin, Vector.getElem_set, Fin.ext_iff]
  by_cases hy : y.val = y'.val
  · simp only [hy, if_true, true_and, Vector.getElem_set]
  · simp [hy]

theorem Screen.pixel_clear (y : Fin 32) (x : Fin 64) : Screen.clear.pixel y x = false := by
  simp [Screen.clear, Screen.pixel]

/-- Two screens with equal pixels are equal. -/
theorem Screen.ext_pixel {fb fb' : Screen} (h : ∀ y x, fb.pixel y x = fb'.pixel y x) : fb = fb' :=
  Vector.ext fun y hy => Vector.ext fun x hx => h ⟨y, hy⟩ ⟨x, hx⟩

/-! ### One row -/

/-- Some column offset of the list targets column `x` with a sprite bit 1. -/
def RowLights (wrap : Bool) (x0 : Nat) (byte : Byte) (cs : List Nat) (x : Fin 64) : Prop :=
  ∃ c, c ∈ cs ∧ spriteCol wrap x0 c = some x ∧ spriteBit byte c = true

/-- Column offsets below 8 have different targets: a row never overlaps itself (spec/44_display.md R134). -/
theorem spriteCol_inj {wrap : Bool} {x0 c c' : Nat} {x : Fin 64} (hc : c < 8) (hc' : c' < 8)
    (h : spriteCol wrap x0 c = some x) (h' : spriteCol wrap x0 c' = some x) : c = c' := by
  unfold spriteCol at h h'
  cases wrap
  · simp only [Bool.false_eq_true, if_false, Option.dite_none_right_eq_some, Option.some.injEq, Fin.ext_iff] at h h'
    obtain ⟨_, h⟩ := h
    obtain ⟨_, h'⟩ := h'
    omega
  · simp only [if_true, Option.some.injEq, Fin.ext_iff] at h h'
    omega

/-- Row offsets below 16 have different targets: a sprite never overlaps itself (spec/44_display.md R134). -/
theorem spriteRow_inj {wrap : Bool} {y0 r r' : Nat} {y : Fin 32} (hr : r < 16) (hr' : r' < 16)
    (h : spriteRow wrap y0 r = some y) (h' : spriteRow wrap y0 r' = some y) : r = r' := by
  unfold spriteRow at h h'
  cases wrap
  · simp only [Bool.false_eq_true, if_false, Option.dite_none_right_eq_some, Option.some.injEq, Fin.ext_iff] at h h'
    obtain ⟨_, h⟩ := h
    obtain ⟨_, h'⟩ := h'
    omega
  · simp only [if_true, Option.some.injEq, Fin.ext_iff] at h h'
    omega

/-- What one row does, at distinct column offsets below 8: exactly the lit pixels of its screen row flip. -/
theorem blitRow_pixel (wrap : Bool) (x0 : Nat) (y : Fin 32) (byte : Byte) (cs : List Nat) (hnd : cs.Nodup)
    (hlt : ∀ c, c ∈ cs → c < 8) (fb : Screen) (col : Bool) (py : Fin 32) (px : Fin 64) :
    (y = py ∧ RowLights wrap x0 byte cs px →
      (blitRow wrap x0 y byte cs (fb, col)).1.pixel py px = !fb.pixel py px) ∧
    (¬ (y = py ∧ RowLights wrap x0 byte cs px) →
      (blitRow wrap x0 y byte cs (fb, col)).1.pixel py px = fb.pixel py px) := by
  induction cs generalizing fb col with
  | nil => simp [blitRow, RowLights]
  | cons c cs ih =>
    rw [List.nodup_cons] at hnd
    have hlt' : ∀ c, c ∈ cs → c < 8 := fun c h => hlt c (by simp [h])
    have hl : ∀ x, RowLights wrap x0 byte (c :: cs) x ↔
        (spriteCol wrap x0 c = some x ∧ spriteBit byte c = true) ∨ RowLights wrap x0 byte cs x := fun x => by
      simp [RowLights]
    unfold blitRow
    cases hs : spriteCol wrap x0 c with
    | none => simpa only [hl, hs, reduceCtorEq, false_and, false_or] using ih hnd.2 hlt' fb col
    | some x =>
      have hx : ¬ RowLights wrap x0 byte cs x := fun ⟨c', hc', h1, _⟩ =>
        hnd.1 (spriteCol_inj (hlt c (by simp)) (hlt' c' hc') hs h1 ▸ hc')
      have ih' := ih hnd.2 hlt' (fb.setPixel y x (fb.pixel y x ^^ spriteBit byte c))
        (col || (spriteBit byte c && fb.pixel y x))
      simp only [hl, hs, Option.some.injEq, Screen.pixel_setPixel] at ih' ⊢
      by_cases hpy : y = py
      · subst hpy
        by_cases hpx : x = px
        · subst hpx
          rw [ih'.2 (fun h => hx h.2)]
          cases spriteBit byte c <;> simp [hx]
        · simpa [hpx] using ih'
      · simpa [hpy] using ih'

/-- When one row collides: some lit pixel of its screen row was on. -/
theorem blitRow_collided (wrap : Bool) (x0 : Nat) (y : Fin 32) (byte : Byte) (cs : List Nat) (hnd : cs.Nodup)
    (hlt : ∀ c, c ∈ cs → c < 8) (fb : Screen) (col : Bool) :
    ((blitRow wrap x0 y byte cs (fb, col)).2 = true) ↔
      (col = true ∨ ∃ px, RowLights wrap x0 byte cs px ∧ fb.pixel y px = true) := by
  induction cs generalizing fb col with
  | nil => simp [blitRow, RowLights]
  | cons c cs ih =>
    rw [List.nodup_cons] at hnd
    have hlt' : ∀ c, c ∈ cs → c < 8 := fun c h => hlt c (by simp [h])
    have hl : ∀ x, RowLights wrap x0 byte (c :: cs) x ↔
        (spriteCol wrap x0 c = some x ∧ spriteBit byte c = true) ∨ RowLights wrap x0 byte cs x := fun x => by
      simp [RowLights]
    unfold blitRow
    cases hs : spriteCol wrap x0 c with
    | none => simp only [ih hnd.2 hlt', hl, hs, reduceCtorEq, false_and, false_or]
    | some x =>
      simp only [ih hnd.2 hlt', hl, hs, Option.some.injEq, Screen.pixel_setPixel, true_and, Bool.or_eq_true,
        Bool.and_eq_true]
      have hx : ∀ px, RowLights wrap x0 byte cs px → x ≠ px := fun px ⟨c', hc', h1, _⟩ h =>
        hnd.1 (spriteCol_inj (hlt c (by simp)) (hlt' c' hc') hs (h ▸ h1) ▸ hc')
      constructor
      · rintro ((h | ⟨h1, h2⟩) | ⟨px, h1, h2⟩)
        · exact .inl h
        · exact .inr ⟨x, .inl ⟨rfl, h1⟩, h2⟩
        · rw [if_neg (hx px h1)] at h2
          exact .inr ⟨px, .inr h1, h2⟩
      · rintro (h | ⟨px, ⟨rfl, h1⟩ | h1, h2⟩)
        · exact .inl (.inl h)
        · exact .inl (.inr ⟨h1, h2⟩)
        · exact .inr ⟨px, h1, by rwa [if_neg (hx px h1)]⟩

/-! ### The rows of a sprite -/

/-- Some row offset of the list, with the byte its address reads, lights pixel (`py`, `px`). -/
def RowsLight (s : State) (x0 y0 : Nat) (base : Word) (rs : List Nat) (py : Fin 32) (px : Fin 64) : Prop :=
  ∃ r, r ∈ rs ∧ spriteRow s.q.wrapScreen y0 r = some py ∧
    RowLights s.q.wrapScreen x0 (s.byteAt (base.toNat + r)) (List.range 8) px

/-- What a sprite does when it completes: exactly the lit pixels flip; VF tells whether one of them was on, or whether
rows drawn before had collided; `DRAW_PENDING` is set; nothing else changes. -/
structure Drawn (s t : State) (x0 y0 : Nat) (base : Word) (rs : List Nat) (col : Bool) : Prop where
  frame : t = { s with fb := t.fb, v := s.v.set 15 (t.readV 15), drawPending := true }
  lit : ∀ py px, RowsLight s x0 y0 base rs py px → t.fb.pixel py px = !s.fb.pixel py px
  dark : ∀ py px, ¬ RowsLight s x0 y0 base rs py px → t.fb.pixel py px = s.fb.pixel py px
  hit : (col = true ∨ ∃ py px, RowsLight s x0 y0 base rs py px ∧ s.fb.pixel py px = true) → t.readV 15 = 1
  miss : ¬ (col = true ∨ ∃ py px, RowsLight s x0 y0 base rs py px ∧ s.fb.pixel py px = true) → t.readV 15 = 0

theorem range8_nodup : (List.range 8).Nodup := List.nodup_range

theorem range8_lt : ∀ c, c ∈ List.range 8 → c < 8 := fun _ h => List.mem_range.mp h

/-- A sprite whose bytes can all be read completes. -/
theorem blitRows_done (x0 y0 : Nat) (base : Word) (rs : List Nat) (col : Bool) (s : State) (hnd : rs.Nodup)
    (hlt : ∀ r, r ∈ rs → r < 16)
    (hin : ∀ r, r ∈ rs → s.q.haltOnOOBAccess = false ∨ base.toNat + r < 4096) :
    ∃ t, blitRows x0 y0 base rs col s = .done t ∧ Drawn s t x0 y0 base rs col := by
  induction rs generalizing col s with
  | nil =>
    refine ⟨_, rfl, ⟨?_, ?_, ?_, ?_, ?_⟩⟩
    · simp [State.readV, State.writeV]
    · rintro py px ⟨r, h, -⟩; simp at h
    · intros; rfl
    · rintro (h | ⟨_, _, ⟨r, h, -⟩, _⟩)
      · simp [State.readV, State.writeV, flagByte, h]
      · simp at h
    · intro h
      have : col = false := by simpa using fun h' => h (.inl h')
      simp [State.readV, State.writeV, flagByte, this]
  | cons r rs ih =>
    rw [List.nodup_cons] at hnd
    have hlt' : ∀ r, r ∈ rs → r < 16 := fun r h => hlt r (by simp [h])
    have hl : ∀ py px, RowsLight s x0 y0 base (r :: rs) py px ↔
        (spriteRow s.q.wrapScreen y0 r = some py ∧
          RowLights s.q.wrapScreen x0 (s.byteAt (base.toNat + r)) (List.range 8) px) ∨
        RowsLight s x0 y0 base rs py px := fun py px => by
      simp [RowsLight]
    unfold blitRows
    rw [show memRead s (effAddr base r) = _ from memRead_eq_ok.mpr ⟨hin r (by simp), rfl⟩]
    simp only
    cases hs : spriteRow s.q.wrapScreen y0 r with
    | none =>
      obtain ⟨t, h, ht⟩ := ih col s hnd.2 hlt' (fun r' h' => hin r' (by simp [h']))
      have hl' : ∀ py px, RowsLight s x0 y0 base (r :: rs) py px ↔ RowsLight s x0 y0 base rs py px := fun py px => by
        simp [hl, hs]
      exact ⟨t, h, ⟨ht.frame, by simpa only [hl'] using ht.lit, by simpa only [hl'] using ht.dark,
        by simpa only [hl'] using ht.hit, by simpa only [hl'] using ht.miss⟩⟩
    | some y =>
      dsimp only
      generalize hp : blitRow s.q.wrapScreen x0 y (s.byteAt (effAddr base r)) (List.range 8) (s.fb, col) = p
      have h1 := blitRow_pixel s.q.wrapScreen x0 y (s.byteAt (effAddr base r)) _ range8_nodup range8_lt s.fb col
      have h2 := blitRow_collided s.q.wrapScreen x0 y (s.byteAt (effAddr base r)) _ range8_nodup range8_lt s.fb col
      rw [hp] at h1 h2
      simp only [effAddr] at h1 h2
      obtain ⟨t, h, ht⟩ := ih p.2 { s with fb := p.1 } hnd.2 hlt' (fun r' h' => hin r' (by simp [h']))
      have hrest : ∀ py px, RowsLight { s with fb := p.1 } x0 y0 base rs py px ↔ RowsLight s x0 y0 base rs py px :=
        fun _ _ => Iff.rfl
      have hne : ∀ py px, RowsLight s x0 y0 base rs py px → y ≠ py := fun py px ⟨r', hr', hs', _⟩ hy =>
        hnd.1 (spriteRow_inj (hlt r (by simp)) (hlt' r' hr') hs (hy ▸ hs') ▸ hr')
      have hother : ∀ py px, y ≠ py → p.1.pixel py px = s.fb.pixel py px := fun py px hy => by
        exact (h1 py px).2 fun h => hy h.1
      have hcol : (p.2 = true ∨ ∃ py px, RowsLight { s with fb := p.1 } x0 y0 base rs py px ∧ p.1.pixel py px = true) ↔
          (col = true ∨ ∃ py px, RowsLight s x0 y0 base (r :: rs) py px ∧ s.fb.pixel py px = true) := by
        rw [h2]
        constructor
        · rintro ((h | ⟨px, h3, h4⟩) | ⟨py, px, h3, h4⟩)
          · exact .inl h
          · exact .inr ⟨y, px, (hl y px).mpr (.inl ⟨hs, h3⟩), h4⟩
          · exact .inr ⟨py, px, (hl py px).mpr (.inr h3), by rwa [← hother py px (hne py px h3)]⟩
        · rintro (h | ⟨py, px, h3, h4⟩)
          · exact .inl (.inl h)
          · rcases (hl py px).mp h3 with ⟨h5, h6⟩ | h5
            · rw [hs, Option.some.injEq] at h5
              subst h5
              exact .inl (.inr ⟨px, h6, h4⟩)
            · exact .inr ⟨py, px, h5, by rwa [hother py px (hne py px h5)]⟩
      refine ⟨t, h, ⟨ht.frame, fun py px hlit => ?_, fun py px hdark => ?_, fun hh => ht.hit (hcol.mpr hh),
        fun hh => ht.miss (fun h' => hh (hcol.mp h'))⟩⟩
      · rcases (hl py px).mp hlit with ⟨h5, h6⟩ | h5
        · rw [hs, Option.some.injEq] at h5
          subst h5
          rw [ht.dark y px (fun h' => hne y px h' rfl)]
          exact (h1 y px).1 ⟨rfl, h6⟩
        · have := ht.lit py px h5
          rw [this]
          simp [hother py px (hne py px h5)]
      · have h5 : ¬ RowsLight s x0 y0 base rs py px := fun h' => hdark ((hl py px).mpr (.inr h'))
        rw [ht.dark py px h5]
        exact (h1 py px).2 fun h' => hdark ((hl py px).mpr (.inl ⟨h'.1 ▸ hs, h'.2⟩))

/-- A sprite whose row `m` of the list is the first with an access that faults ends there; the rows before it are drawn
as a sprite of those rows alone draws them, and VF and `DRAW_PENDING` are not written (spec/44_display.md R136). -/
theorem blitRows_raised (x0 y0 : Nat) (base : Word) (pre : List Nat) (m : Nat) (post : List Nat) (col : Bool) (s : State)
    (hq : s.q.haltOnOOBAccess = true) (hout : 4096 ≤ base.toNat + m)
    (hin : ∀ r, r ∈ pre → base.toNat + r < 4096) :
    ∃ t u, blitRows x0 y0 base (pre ++ m :: post) col s = .raised (.outOfBounds (base.toNat + m)) t ∧
      blitRows x0 y0 base pre col s = .done u ∧ t = { s with fb := u.fb } := by
  induction pre generalizing col s with
  | nil =>
    refine ⟨s, _, ?_, rfl, rfl⟩
    rw [List.nil_append]
    unfold blitRows
    rw [show memRead s (effAddr base m) = _ from memRead_eq_error.mpr ⟨⟨hq, hout⟩, rfl⟩]
    rfl
  | cons r pre ih =>
    have hr : memRead s (effAddr base r) = .ok (s.byteAt (base.toNat + r)) :=
      memRead_eq_ok.mpr ⟨.inr (hin r (by simp)), rfl⟩
    have hin' : ∀ r, r ∈ pre → base.toNat + r < 4096 := fun r h => hin r (by simp [h])
    rw [List.cons_append]
    unfold blitRows
    rw [hr]
    simp only
    cases spriteRow s.q.wrapScreen y0 r with
    | none => exact ih col s hq hin'
    | some y => exact ih _ _ hq hin'

/-- What a sprite can do, complete or not: it writes the screen, and when it completes VF and `DRAW_PENDING`. -/
theorem blitRows_frame (x0 y0 : Nat) (base : Word) (rs : List Nat) (col : Bool) (s : State) :
    (∃ t b, blitRows x0 y0 base rs col s = .done t ∧
      t = { s with v := s.v.set 15 (flagByte b), fb := t.fb, drawPending := true }) ∨
    (∃ t a, blitRows x0 y0 base rs col s = .raised (.outOfBounds a) t ∧ t = { s with fb := t.fb } ∧
      s.q.haltOnOOBAccess = true ∧ 4096 ≤ a) := by
  induction rs generalizing col s with
  | nil => exact .inl ⟨_, col, rfl, rfl⟩
  | cons r rs ih =>
    unfold blitRows
    cases hr : memRead s (effAddr base r) with
    | error f =>
      obtain ⟨⟨h1, h2⟩, rfl⟩ := memRead_eq_error.mp hr
      exact .inr ⟨s, _, rfl, rfl, h1, h2⟩
    | ok byte =>
      simp only
      cases spriteRow s.q.wrapScreen y0 r with
      | none => exact ih col s
      | some y => exact ih _ _

/-- `SpriteLights` in the blitter's own terms (spec/44_display.md R131). -/
theorem spriteLights_iff {s : State} {x y : Reg} {n : Nat} {py : Fin 32} {px : Fin 64} :
    SpriteLights s x y n py px ↔
      RowsLight s ((s.readV x).toNat % 64) ((s.readV y).toNat % 32) s.i (List.range n) py px := by
  unfold SpriteLights RowsLight RowLights
  constructor
  · rintro ⟨r, c, hr, hc, h1, h2⟩
    refine ⟨r, List.mem_range.mpr hr, ?_, c, List.mem_range.mpr hc, ?_, h2⟩
    · unfold spriteRow
      cases hq : s.q.wrapScreen <;> simp only [hq, Bool.false_eq_true, if_false, if_true] at h1 ⊢
      · rw [dif_pos (by have := py.isLt; omega)]
        exact congrArg some (Fin.ext h1.1.symm)
      · exact congrArg some (Fin.ext h1.1.symm)
    · unfold spriteCol
      cases hq : s.q.wrapScreen <;> simp only [hq, Bool.false_eq_true, if_false, if_true] at h1 ⊢
      · rw [dif_pos (by have := px.isLt; omega)]
        exact congrArg some (Fin.ext h1.2.symm)
      · exact congrArg some (Fin.ext h1.2.symm)
  · rintro ⟨r, hr, h1, c, hc, h2, h3⟩
    refine ⟨r, c, List.mem_range.mp hr, List.mem_range.mp hc, ?_, h3⟩
    unfold spriteRow at h1
    unfold spriteCol at h2
    cases hq : s.q.wrapScreen <;> simp [hq] at h1 h2 ⊢
    · obtain ⟨_, rfl⟩ := h1
      obtain ⟨_, rfl⟩ := h2
      simp
    · subst h1 h2
      simp

end Sys2Proof.Machine
end

