-- ==== Sys2Proof/Laws/Encoding.lean ====
section
/-!
SUPPORT. What packing and the field readers do to each other (spec/30_encoding.md R61, R62), the bits a row's mask keeps
(R64), and the word and its two bytes (R60).
-/

namespace Sys2Proof

theorem eq_of_bits4 {a b : Nibble} (h : ∀ k, k < 4 → a.getLsbD k = b.getLsbD k) : a = b :=
  BitVec.eq_of_getLsbD_eq h

/-! ### The fields of a packed word -/

theorem fields_packXYN (f x y n : Nibble) :
    familyOf (packXYN f x y n) = f ∧ xOf (packXYN f x y n) = x ∧ yOf (packXYN f x y n) = y ∧
      nOf (packXYN f x y n) = n := by
  refine ⟨?_, ?_, ?_, ?_⟩ <;> refine eq_of_bits4 fun k hk => ?_ <;>
    simp only [familyOf, xOf, yOf, nOf, packXYN, BitVec.getLsbD_extractLsb', BitVec.getLsbD_append] <;>
    rcases (by omega : k = 0 ∨ k = 1 ∨ k = 2 ∨ k = 3) with rfl | rfl | rfl | rfl <;> simp

theorem fields_packXNN (f x : Nibble) (nn : Byte) :
    familyOf (packXNN f x nn) = f ∧ xOf (packXNN f x nn) = x ∧ nnOf (packXNN f x nn) = nn := by
  refine ⟨?_, ?_, ?_⟩ <;> refine BitVec.eq_of_getLsbD_eq fun k hk => ?_ <;>
    simp only [familyOf, xOf, nnOf, packXNN, BitVec.getLsbD_extractLsb', BitVec.getLsbD_append]
  · simp [hk, show ¬ 12 + k < 8 by omega, show ¬ 12 + k - 8 < 4 by omega, show 12 + k - 8 - 4 = k by omega]
  · simp [hk, show ¬ 8 + k < 8 by omega]
  · simp [hk]

theorem fields_packNNN (f : Nibble) (nnn : Addr12) :
    familyOf (packNNN f nnn) = f ∧ nnnOf (packNNN f nnn) = nnn := by
  refine ⟨?_, ?_⟩ <;> refine BitVec.eq_of_getLsbD_eq fun k hk => ?_ <;>
    simp only [familyOf, nnnOf, packNNN, BitVec.getLsbD_extractLsb', BitVec.getLsbD_append]
  · simp [hk, show ¬ 12 + k < 12 by omega]
  · simp [hk]

/-- A word is its fields packed again, in each of the three ways. -/
theorem pack_fields (w : Word) :
    packXYN (familyOf w) (xOf w) (yOf w) (nOf w) = w ∧ packXNN (familyOf w) (xOf w) (nnOf w) = w ∧
      packNNN (familyOf w) (nnnOf w) = w := by
  refine ⟨?_, ?_, ?_⟩ <;> refine BitVec.eq_of_getLsbD_eq fun k hk => ?_ <;>
    simp only [familyOf, xOf, yOf, nOf, nnOf, nnnOf, packXYN, packXNN, packNNN, BitVec.getLsbD_extractLsb',
      BitVec.getLsbD_append]
  · by_cases h0 : k < 4
    · simp [h0]
    · by_cases h1 : k < 8
      · simp [h0, show k - 4 < 4 by omega, show 4 + (k - 4) = k by omega]
      · by_cases h2 : k < 12
        · simp [h0, show ¬ k - 4 < 4 by omega, show k - 4 - 4 < 4 by omega, show 8 + (k - 4 - 4) = k by omega]
        · simp [h0, show ¬ k - 4 < 4 by omega, show ¬ k - 4 - 4 < 4 by omega, show k - 4 - 4 - 4 < 4 by omega,
            show 12 + (k - 4 - 4 - 4) = k by omega]
  · by_cases h1 : k < 8
    · simp [h1]
    · by_cases h2 : k < 12
      · simp [h1, show k - 8 < 4 by omega, show 8 + (k - 8) = k by omega]
      · simp [h1, show ¬ k - 8 < 4 by omega, show k - 8 - 4 < 4 by omega, show 12 + (k - 8 - 4) = k by omega]
  · by_cases h2 : k < 12
    · simp [h2]
    · simp [h2, show k - 12 < 4 by omega, show 12 + (k - 12) = k by omega]

@[simp] theorem regOf_fieldOf (x : Reg) : regOf (fieldOf x) = x := rfl
@[simp] theorem fieldOf_regOf (x : Nibble) : fieldOf (regOf x) = x := rfl

/-! ### What a mask keeps -/

theorem packNNN_mask (f : Nibble) (nnn : Addr12) : packNNN f nnn &&& 0xF000 = packNNN f 0 := by
  refine BitVec.eq_of_getLsbD_eq fun k hk => ?_
  have hm : ∀ k, k < 16 → (0xF000 : Word).getLsbD k = decide (12 ≤ k) := by decide
  rw [BitVec.getLsbD_and, hm k hk]
  simp only [packNNN, BitVec.getLsbD_append]
  by_cases h : k < 12
  · simp [h]
  · simp [h, Nat.not_lt.mp h]

theorem packXNN_eq_packNNN (f x : Nibble) (nn : Byte) : packXNN f x nn = packNNN f (x ++ nn) := by
  refine BitVec.eq_of_getLsbD_eq fun k hk => ?_
  simp only [packXNN, packNNN, BitVec.getLsbD_append]
  by_cases h : k < 8
  · simp [h, show k < 12 by omega]
  · by_cases h2 : k < 12
    · simp [h, h2, show k - 8 < 4 by omega]
    · simp [h, h2, show ¬ k - 8 < 4 by omega, show k - 8 - 4 = k - 12 by omega]

theorem packXYN_eq_packXNN (f x y n : Nibble) : packXYN f x y n = packXNN f x (y ++ n) := by
  refine BitVec.eq_of_getLsbD_eq fun k hk => ?_
  simp only [packXYN, packXNN, BitVec.getLsbD_append]
  by_cases h : k < 4
  · simp [h, show k < 8 by omega]
  · by_cases h2 : k < 8
    · simp [h, h2, show k - 4 < 4 by omega]
    · simp [h, h2, show ¬ k - 4 < 4 by omega, show k - 4 - 4 = k - 8 by omega]

theorem packXNN_mask (f x : Nibble) (nn : Byte) : packXNN f x nn &&& 0xF000 = packNNN f 0 := by
  rw [packXNN_eq_packNNN, packNNN_mask]

theorem packXYN_mask (f x y n : Nibble) : packXYN f x y n &&& 0xF000 = packNNN f 0 := by
  rw [packXYN_eq_packXNN, packXNN_mask]

theorem packXNN_mask_low (f x : Nibble) (nn : Byte) : packXNN f x nn &&& 0xF0FF = packXNN f 0 nn := by
  refine BitVec.eq_of_getLsbD_eq fun k hk => ?_
  have hm : ∀ k, k < 16 → (0xF0FF : Word).getLsbD k = (decide (12 ≤ k) || decide (k < 8)) := by decide
  rw [BitVec.getLsbD_and, hm k hk]
  simp only [packXNN, BitVec.getLsbD_append]
  by_cases h : k < 8
  · simp [h]
  · by_cases h2 : k < 12
    · simp [h, Nat.not_le.mpr h2, show k - 8 < 4 by omega]
    · simp [h, Nat.not_lt.mp h2, show ¬ k - 8 < 4 by omega]

theorem packXYN_mask_low (f x y n : Nibble) : packXYN f x y n &&& 0xF00F = packXYN f 0 0 n := by
  refine BitVec.eq_of_getLsbD_eq fun k hk => ?_
  have hm : ∀ k, k < 16 → (0xF00F : Word).getLsbD k = (decide (12 ≤ k) || decide (k < 4)) := by decide
  rw [BitVec.getLsbD_and, hm k hk]
  simp only [packXYN, BitVec.getLsbD_append]
  by_cases h : k < 4
  · simp [h]
  · by_cases h2 : k < 12
    · by_cases h3 : k < 8
      · simp [h, Nat.not_le.mpr h2, show k - 4 < 4 by omega]
      · simp [h, Nat.not_le.mpr h2, show ¬ k - 4 < 4 by omega, show k - 4 - 4 < 4 by omega]
    · simp [h, Nat.not_lt.mp h2, show ¬ k - 4 < 4 by omega, show ¬ k - 4 - 4 < 4 by omega]

/-! ### Fields as numbers, a word as its bytes -/

theorem fields_toNat (w : Word) :
    (familyOf w).toNat = w.toNat / 4096 ∧ (nnOf w).toNat = w.toNat % 256 ∧ (nOf w).toNat = w.toNat % 16 := by
  have := w.isLt
  refine ⟨?_, ?_, ?_⟩ <;> simp [familyOf, nnOf, nOf, Nat.shiftRight_eq_div_pow]
  omega

@[simp] theorem wordOfBytes_bytes (w : Word) : wordOfBytes (highByte w) (lowByte w) = w := by
  refine BitVec.eq_of_getLsbD_eq fun k hk => ?_
  simp only [wordOfBytes, highByte, lowByte, BitVec.getLsbD_append, BitVec.getLsbD_extractLsb']
  by_cases h : k < 8
  · simp [h]
  · simp [h, show 8 + (k - 8) = k by omega, show k - 8 < 8 by omega]

end Sys2Proof
end

