-- ==== Sys2Proof/Laws/Exec.lean ====
section
/-!
SUPPORT. What `exec` runs for each instruction, its arm by rfl, so that no proof unfolds the whole dispatch.
-/

namespace Sys2Proof.Machine

variable (s : State)

@[simp] theorem exec_cls (ign : Nibble) : exec (.cls ign) s = execCls s := rfl
@[simp] theorem exec_ret (ign : Nibble) : exec (.ret ign) s = execRet s := rfl
@[simp] theorem exec_jp (nnn : Addr12) : exec (.jp nnn) s = execJp nnn s := rfl
@[simp] theorem exec_call (nnn : Addr12) : exec (.call nnn) s = execCall nnn s := rfl
@[simp] theorem exec_seImm (x : Reg) (nn : Byte) : exec (.seImm x nn) s = execSeImm x nn s := rfl
@[simp] theorem exec_sneImm (x : Reg) (nn : Byte) : exec (.sneImm x nn) s = execSneImm x nn s := rfl
@[simp] theorem exec_seReg (x y : Reg) (ign : Nibble) : exec (.seReg x y ign) s = execSeReg x y s := rfl
@[simp] theorem exec_ldImm (x : Reg) (nn : Byte) : exec (.ldImm x nn) s = execLdImm x nn s := rfl
@[simp] theorem exec_addImm (x : Reg) (nn : Byte) : exec (.addImm x nn) s = execAddImm x nn s := rfl
@[simp] theorem exec_ldReg (x y : Reg) : exec (.ldReg x y) s = execLdReg x y s := rfl
@[simp] theorem exec_orReg (x y : Reg) : exec (.orReg x y) s = execOrReg x y s := rfl
@[simp] theorem exec_andReg (x y : Reg) : exec (.andReg x y) s = execAndReg x y s := rfl
@[simp] theorem exec_xorReg (x y : Reg) : exec (.xorReg x y) s = execXorReg x y s := rfl
@[simp] theorem exec_addReg (x y : Reg) : exec (.addReg x y) s = execAddReg x y s := rfl
@[simp] theorem exec_subReg (x y : Reg) : exec (.subReg x y) s = execSubReg x y s := rfl
@[simp] theorem exec_shrReg (x y : Reg) : exec (.shrReg x y) s = execShrReg x y s := rfl
@[simp] theorem exec_subnReg (x y : Reg) : exec (.subnReg x y) s = execSubnReg x y s := rfl
@[simp] theorem exec_shlReg (x y : Reg) : exec (.shlReg x y) s = execShlReg x y s := rfl
@[simp] theorem exec_sneReg (x y : Reg) (ign : Nibble) : exec (.sneReg x y ign) s = execSneReg x y s := rfl
@[simp] theorem exec_ldI (nnn : Addr12) : exec (.ldI nnn) s = execLdI nnn s := rfl
@[simp] theorem exec_jpV0 (nnn : Addr12) : exec (.jpV0 nnn) s = execJpV0 nnn s := rfl
@[simp] theorem exec_rnd (x : Reg) (nn : Byte) : exec (.rnd x nn) s = execRnd x nn s := rfl
@[simp] theorem exec_drw (x y : Reg) (n : Nibble) : exec (.drw x y n) s = execDrw x y n s := rfl
@[simp] theorem exec_skp (x : Reg) : exec (.skp x) s = execSkp x s := rfl
@[simp] theorem exec_sknp (x : Reg) : exec (.sknp x) s = execSknp x s := rfl
@[simp] theorem exec_ldVxDT (x : Reg) : exec (.ldVxDT x) s = execLdVxDT x s := rfl
@[simp] theorem exec_ldVxK (x : Reg) : exec (.ldVxK x) s = execLdVxK x s := rfl
@[simp] theorem exec_ldDT (x : Reg) : exec (.ldDT x) s = execLdDT x s := rfl
@[simp] theorem exec_ldST (x : Reg) : exec (.ldST x) s = execLdST x s := rfl
@[simp] theorem exec_addI (x : Reg) : exec (.addI x) s = execAddI x s := rfl
@[simp] theorem exec_ldF (x : Reg) : exec (.ldF x) s = execLdF x s := rfl
@[simp] theorem exec_ldB (x : Reg) : exec (.ldB x) s = execLdB x s := rfl
@[simp] theorem exec_storeRegs (x : Reg) : exec (.storeRegs x) s = execStoreRegs x s := rfl
@[simp] theorem exec_loadRegs (x : Reg) : exec (.loadRegs x) s = execLoadRegs x s := rfl

end Sys2Proof.Machine
end

