-- ==== Sys2Proof/Laws/PerInstr.lean ====
section
/-!
SUPPORT. The family RowBits: the encoder writes the fixed bits of its instruction's row in the opcode map
(spec/30_encoding.md R64), whatever the operands; one lemma per constructor.
-/

namespace Sys2Proof.Laws.RowBits

/-- The word of an instruction has its row's `match` in the bits of its row's `mask` (spec/30_encoding.md R64). -/
def Statement (i : Instr) : Prop := encode i &&& (rowOf i).2 = (rowOf i).1

theorem cls (ign : Nibble) : Statement (.cls ign) :=
  (packXNN_mask_low ..).trans rfl

theorem ret (ign : Nibble) : Statement (.ret ign) :=
  (packXNN_mask_low ..).trans rfl

theorem jp (nnn : Addr12) : Statement (.jp nnn) :=
  (packNNN_mask ..).trans rfl

theorem call (nnn : Addr12) : Statement (.call nnn) :=
  (packNNN_mask ..).trans rfl

theorem seImm (x : Reg) (nn : Byte) : Statement (.seImm x nn) :=
  (packXNN_mask ..).trans rfl

theorem sneImm (x : Reg) (nn : Byte) : Statement (.sneImm x nn) :=
  (packXNN_mask ..).trans rfl

theorem seReg (x : Reg) (y : Reg) (ign : Nibble) : Statement (.seReg x y ign) :=
  (packXYN_mask ..).trans rfl

theorem ldImm (x : Reg) (nn : Byte) : Statement (.ldImm x nn) :=
  (packXNN_mask ..).trans rfl

theorem addImm (x : Reg) (nn : Byte) : Statement (.addImm x nn) :=
  (packXNN_mask ..).trans rfl

theorem ldReg (x : Reg) (y : Reg) : Statement (.ldReg x y) :=
  (packXYN_mask_low ..).trans rfl

theorem orReg (x : Reg) (y : Reg) : Statement (.orReg x y) :=
  (packXYN_mask_low ..).trans rfl

theorem andReg (x : Reg) (y : Reg) : Statement (.andReg x y) :=
  (packXYN_mask_low ..).trans rfl

theorem xorReg (x : Reg) (y : Reg) : Statement (.xorReg x y) :=
  (packXYN_mask_low ..).trans rfl

theorem addReg (x : Reg) (y : Reg) : Statement (.addReg x y) :=
  (packXYN_mask_low ..).trans rfl

theorem subReg (x : Reg) (y : Reg) : Statement (.subReg x y) :=
  (packXYN_mask_low ..).trans rfl

theorem shrReg (x : Reg) (y : Reg) : Statement (.shrReg x y) :=
  (packXYN_mask_low ..).trans rfl

theorem subnReg (x : Reg) (y : Reg) : Statement (.subnReg x y) :=
  (packXYN_mask_low ..).trans rfl

theorem shlReg (x : Reg) (y : Reg) : Statement (.shlReg x y) :=
  (packXYN_mask_low ..).trans rfl

theorem sneReg (x : Reg) (y : Reg) (ign : Nibble) : Statement (.sneReg x y ign) :=
  (packXYN_mask ..).trans rfl

theorem ldI (nnn : Addr12) : Statement (.ldI nnn) :=
  (packNNN_mask ..).trans rfl

theorem jpV0 (nnn : Addr12) : Statement (.jpV0 nnn) :=
  (packNNN_mask ..).trans rfl

theorem rnd (x : Reg) (nn : Byte) : Statement (.rnd x nn) :=
  (packXNN_mask ..).trans rfl

theorem drw (x : Reg) (y : Reg) (n : Nibble) : Statement (.drw x y n) :=
  (packXYN_mask ..).trans rfl

theorem skp (x : Reg) : Statement (.skp x) :=
  (packXNN_mask_low ..).trans rfl

theorem sknp (x : Reg) : Statement (.sknp x) :=
  (packXNN_mask_low ..).trans rfl

theorem ldVxDT (x : Reg) : Statement (.ldVxDT x) :=
  (packXNN_mask_low ..).trans rfl

theorem ldVxK (x : Reg) : Statement (.ldVxK x) :=
  (packXNN_mask_low ..).trans rfl

theorem ldDT (x : Reg) : Statement (.ldDT x) :=
  (packXNN_mask_low ..).trans rfl

theorem ldST (x : Reg) : Statement (.ldST x) :=
  (packXNN_mask_low ..).trans rfl

theorem addI (x : Reg) : Statement (.addI x) :=
  (packXNN_mask_low ..).trans rfl

theorem ldF (x : Reg) : Statement (.ldF x) :=
  (packXNN_mask_low ..).trans rfl

theorem ldB (x : Reg) : Statement (.ldB x) :=
  (packXNN_mask_low ..).trans rfl

theorem storeRegs (x : Reg) : Statement (.storeRegs x) :=
  (packXNN_mask_low ..).trans rfl

theorem loadRegs (x : Reg) : Statement (.loadRegs x) :=
  (packXNN_mask_low ..).trans rfl

end Sys2Proof.Laws.RowBits
end

