-- ==== Sys2Proof/Tests/Slice0.lean ====
section
/-!
SUPPORT. The model's own tests: the well-formedness smoke, a word written out for every constructor, one step per
instruction with the result taken from spec/95_test_vectors.md (its vector is named in each docstring), the host
operations, and for every statement with hypotheses a witness that meets them.
-/

namespace Sys2Proof.Tests

open Sys2Proof.Machine

/-! ### Helpers -/

/-- The state after one step with `w` placed at the program counter. -/
def run1 (w : Word) (s : State) : Option State :=
  match step (s.withFetchWord 16 w.toNat) with
  | .next t => some t
  | .fault _ => none
  | .refused _ => none

/-- Reset with registers set. -/
def regs (l : List (Reg × Byte)) : State := l.foldl (fun s p => s.writeV p.1 p.2) State.reset

/-- Reset in another configuration. -/
def other : State := State.resetWith { defaultConfig with fontBase := 0xFB0, progBase := 0x600 } Config.quirks0

/-- `s` with bytes stored from `a` up. -/
def withBytes (a : Nat) (bytes : List Byte) (s : State) : State := { s with mem := s.mem.writeBytes s.cfg a bytes }

/-- `s` with one quirk on. -/
def on (name : QuirkName) (s : State) : State := { s with q := quirkSet s.q name true }

/-- `n` bytes read from `a` up. -/
def bytesAt (s : State) (a n : Nat) : List Byte := (List.range n).map fun k => s.byteAt (a + k)

/-- The pixels of a row that are on. -/
def lit (s : State) (y : Fin 32) : List Nat :=
  ((List.finRange 64).filter fun x => s.fb.pixel y x).map Fin.val

/-! ### Well-formedness smoke: each check of `Instr.wellFormed` refuses an ill-formed term (spec/30_encoding.md R69) -/

theorem test_wf_refuses_cls_alias : (Instr.cls 1).wellFormed = false := by decide
theorem test_wf_refuses_ret_alias : (Instr.ret 0xF).wellFormed = false := by decide
theorem test_wf_refuses_seReg_alias : (Instr.seReg 1 2 7).wellFormed = false := by decide
theorem test_wf_refuses_sneReg_alias : (Instr.sneReg 1 2 0xF).wellFormed = false := by decide
theorem test_wf_accepts_canonical :
    (Instr.cls 0).wellFormed ∧ (Instr.ret 0).wellFormed ∧ (Instr.seReg 1 2 0).wellFormed ∧
      (Instr.sneReg 1 2 0).wellFormed ∧ (Instr.drw 1 2 7).wellFormed := by decide

/-! ### A word for every constructor, written out from the patterns of spec/30_encoding.md R61 and R64 -/

theorem test_decode_family_0 :
    decodeWord 0b0000000011100000 = .ok (.cls 0) ∧ decodeWord 0b0000000011101110 = .ok (.ret 0) ∧
      decodeWord 0x0FEE = .ok (.ret 0xF) ∧ decodeWord 0x01E0 = .ok (.cls 1) := by decide
theorem test_decode_jumps :
    decodeWord 0b0001001000000011 = .ok (.jp 0x203) ∧ decodeWord 0b0010001100000000 = .ok (.call 0x300) ∧
      decodeWord 0b1011111111111111 = .ok (.jpV0 0xFFF) ∧ decodeWord 0b1010000100100011 = .ok (.ldI 0x123) := by decide
theorem test_decode_skips :
    decodeWord 0b0011000100000101 = .ok (.seImm 1 5) ∧ decodeWord 0b0100000100000101 = .ok (.sneImm 1 5) ∧
      decodeWord 0b0101000100100000 = .ok (.seReg 1 2 0) ∧ decodeWord 0b1001000100100000 = .ok (.sneReg 1 2 0) ∧
      decodeWord 0x5127 = .ok (.seReg 1 2 7) ∧ decodeWord 0x912F = .ok (.sneReg 1 2 0xF) := by decide
theorem test_decode_literals :
    decodeWord 0b0110000000001010 = .ok (.ldImm 0 10) ∧ decodeWord 0b0111111100000001 = .ok (.addImm 15 1) ∧
      decodeWord 0b1100001100001111 = .ok (.rnd 3 0x0F) := by decide
theorem test_decode_family_8 :
    decodeWord 0b1000010000110000 = .ok (.ldReg 4 3) ∧ decodeWord 0b1000000000010001 = .ok (.orReg 0 1) ∧
      decodeWord 0b1000000000010010 = .ok (.andReg 0 1) ∧ decodeWord 0b1000000000010011 = .ok (.xorReg 0 1) ∧
      decodeWord 0b1000000000010100 = .ok (.addReg 0 1) ∧ decodeWord 0b1000000000010101 = .ok (.subReg 0 1) ∧
      decodeWord 0b1000000000010110 = .ok (.shrReg 0 1) ∧ decodeWord 0b1000000000010111 = .ok (.subnReg 0 1) ∧
      decodeWord 0b1000000000011110 = .ok (.shlReg 0 1) := by decide
theorem test_decode_draw_and_keys :
    decodeWord 0b1101001101000101 = .ok (.drw 3 4 5) ∧ decodeWord 0b1110001010011110 = .ok (.skp 2) ∧
      decodeWord 0b1110001010100001 = .ok (.sknp 2) := by decide
theorem test_decode_family_F :
    decodeWord 0b1111000100000111 = .ok (.ldVxDT 1) ∧ decodeWord 0b1111010100001010 = .ok (.ldVxK 5) ∧
      decodeWord 0b1111000000010101 = .ok (.ldDT 0) ∧ decodeWord 0b1111000000011000 = .ok (.ldST 0) ∧
      decodeWord 0b1111001000011110 = .ok (.addI 2) ∧ decodeWord 0b1111000000101001 = .ok (.ldF 0) ∧
      decodeWord 0b1111000000110011 = .ok (.ldB 0) ∧ decodeWord 0b1111001001010101 = .ok (.storeRegs 2) ∧
      decodeWord 0b1111001001100101 = .ok (.loadRegs 2) := by decide
/-- Vectors E2 to E4. -/
theorem test_decode_refuses :
    decodeWord 0x0000 = .error (.badOpcode 0x0000) ∧ decodeWord 0x00E1 = .error (.badOpcode 0x00E1) ∧
      decodeWord 0x0123 = .error (.badOpcode 0x0123) ∧ decodeWord 0x8018 = .error (.badOpcode 0x8018) ∧
      decodeWord 0xE09F = .error (.badOpcode 0xE09F) ∧ decodeWord 0xF008 = .error (.badOpcode 0xF008) ∧
      decode [0x60] = .error .truncated := by decide
/-- High byte first (spec/20_memory.md R44), and the table's numbering. -/
theorem test_decode_bytes :
    decode [0x60, 0x0A, 0x61] = .ok (.ldImm 0 10, [0x61]) ∧ encodeBytes (.ldImm 0 10) = [0x60, 0x0A] ∧
      decodeTableWord 16 0x8014 = some (.addReg 0 1) ∧ decodeTableWord 16 0x0000 = none := by decide

/-! ### One step per instruction, from spec/95_test_vectors.md -/

/-- G13. -/
theorem test_cls : (run1 0x00E0 { regs [(15, 5)] with fb := Screen.clear.setPixel 3 3 true }).map
    (fun t => (lit t 3, t.readV 15, t.drawPending, t.pc)) = some ([], 5, false, 0x202) := by decide
/-- C11 and E7. -/
theorem test_ret : (run1 0x0FEE { State.reset with stack := [0x0ABC] }).map (fun t => (t.pc, t.stack)) =
    some (0x0ABC, []) := by decide
/-- C16. -/
theorem test_ret_empty : (run1 0x00EE State.reset).map (fun t => (t.pc, t.stack, t.fault, t.icount)) =
    some (0x202, [], some (.stackError .underflow), 0) := by decide
/-- C9. -/
theorem test_jp_odd : (run1 0x1203 State.reset).map (fun t => (t.pc, t.fault)) = some (0x203, none) := by decide
/-- C10. -/
theorem test_call : (run1 0x2300 State.reset).map (fun t => (t.pc, t.stack)) = some (0x300, [0x202]) := by decide
/-- C15. -/
theorem test_call_full : (run1 0x2200 { State.reset with stack := List.replicate 16 0x202 }).map
    (fun t => (t.pc, t.stack.length, t.fault, t.icount)) = some (0x202, 16, some (.stackError .overflow), 0) := by decide
/-- C1, C2. -/
theorem test_seImm : (run1 0x3105 (regs [(1, 5)])).map State.pc = some 0x204 ∧
    (run1 0x3105 (regs [(1, 6)])).map State.pc = some 0x202 := by decide
/-- C3, C4. -/
theorem test_sneImm : (run1 0x4105 (regs [(1, 5)])).map State.pc = some 0x202 ∧
    (run1 0x4105 (regs [(1, 6)])).map State.pc = some 0x204 := by decide
/-- C5, C6 and the alias E5. -/
theorem test_seReg : (run1 0x5127 (regs [(1, 7), (2, 7)])).map State.pc = some 0x204 ∧
    (run1 0x5120 (regs [(1, 7), (2, 8)])).map State.pc = some 0x202 := by decide
/-- C7 and the alias E6. -/
theorem test_sneReg : (run1 0x9120 (regs [(1, 7), (2, 7)])).map State.pc = some 0x202 ∧
    (run1 0x912F (regs [(1, 7), (2, 8)])).map State.pc = some 0x204 := by decide
/-- C12, C13, C14. -/
theorem test_jpV0 : (run1 0xB300 (regs [(0, 0x10), (3, 0x20)])).map State.pc = some 0x310 ∧
    (run1 0xB300 (on .jump (regs [(0, 0x10), (3, 0x20)]))).map State.pc = some 0x320 ∧
    (run1 0xBFFF (regs [(0, 0xFF)])).map State.pc = some 0x10FE := by decide
/-- A31. -/
theorem test_ldImm : (run1 0x6105 State.reset).map (fun t => (t.readV 1, t.pc, t.icount)) = some (5, 0x202, 1) := by
  decide
/-- A1, A2. -/
theorem test_addImm : (run1 0x7001 (regs [(0, 0xFF), (15, 7)])).map (fun t => (t.readV 0, t.readV 15)) = some (0, 7) ∧
    (run1 0x7F01 (regs [(15, 0xFF)])).map (fun t => t.readV 15) = some 0 := by decide
/-- A30. -/
theorem test_ldReg : (run1 0x8430 (regs [(3, 0x2A)])).map (fun t => t.readV 4) = some 0x2A := by decide
/-- A23, A24. -/
theorem test_orReg : (run1 0x8011 (regs [(0, 0x0F), (1, 0xF0), (15, 7)])).map (fun t => (t.readV 0, t.readV 15)) =
      some (0xFF, 7) ∧
    (run1 0x8011 (on .resetVF (regs [(0, 0x0F), (1, 0xF0), (15, 7)]))).map (fun t => (t.readV 0, t.readV 15)) =
      some (0xFF, 0) := by decide
/-- A25, A26. -/
theorem test_orReg_vf : (run1 0x8F11 (on .resetVF (regs [(15, 0x0F), (1, 0xF0)]))).map (fun t => t.readV 15) = some 0 ∧
    (run1 0x8F11 (regs [(15, 0x0F), (1, 0xF0)])).map (fun t => t.readV 15) = some 0xFF := by decide
/-- A27. -/
theorem test_andReg : (run1 0x8012 (regs [(0, 0x3C), (1, 0x0F)])).map (fun t => t.readV 0) = some 0x0C := by decide
/-- A28. -/
theorem test_xorReg : (run1 0x8013 (regs [(0, 0xFF), (1, 0x0F)])).map (fun t => t.readV 0) = some 0xF0 := by decide
/-- A4, A9. -/
theorem test_addReg : (run1 0x8014 (regs [(0, 0xFF), (1, 0xFF)])).map (fun t => (t.readV 0, t.readV 15)) =
      some (0xFE, 1) ∧
    (run1 0x8004 (regs [(0, 0x90)])).map (fun t => (t.readV 0, t.readV 15)) = some (0x20, 1) := by decide
/-- A6, A8: VF as destination and as operand. -/
theorem test_addReg_vf : (run1 0x8F14 (regs [(15, 0xC8), (1, 0x64)])).map (fun t => t.readV 15) = some 1 ∧
    (run1 0x80F4 (regs [(0, 0xFF), (15, 1)])).map (fun t => (t.readV 0, t.readV 15)) = some (0, 1) := by decide
/-- A10, A12. -/
theorem test_subReg : (run1 0x8015 (regs [(0, 5), (1, 10)])).map (fun t => (t.readV 0, t.readV 15)) = some (0xFB, 0) ∧
    (run1 0x8015 (regs [(0, 7), (1, 7)])).map (fun t => (t.readV 0, t.readV 15)) = some (0, 1) := by decide
/-- A13. -/
theorem test_subReg_vf : (run1 0x8F15 (regs [(15, 3), (1, 5)])).map (fun t => t.readV 15) = some 0 := by decide
/-- A14, A15. -/
theorem test_subnReg : (run1 0x8017 (regs [(0, 5), (1, 10)])).map (fun t => (t.readV 0, t.readV 15)) = some (5, 1) ∧
    (run1 0x8017 (regs [(0, 10), (1, 5)])).map (fun t => (t.readV 0, t.readV 15)) = some (0xFB, 0) := by decide
/-- A16, A18. -/
theorem test_shrReg : (run1 0x8016 (regs [(1, 3)])).map (fun t => (t.readV 0, t.readV 1, t.readV 15)) = some (1, 3, 1) ∧
    (run1 0x8016 (on .shift (regs [(0, 5), (1, 3)]))).map (fun t => (t.readV 0, t.readV 15)) = some (2, 1) := by decide
/-- A21, A22. -/
theorem test_shrReg_vf : (run1 0x8F16 (regs [(1, 3)])).map (fun t => t.readV 15) = some 1 ∧
    (run1 0x80F6 (regs [(15, 3)])).map (fun t => (t.readV 0, t.readV 15)) = some (1, 1) := by decide
/-- A19, A20. -/
theorem test_shlReg : (run1 0x801E (regs [(1, 0x81)])).map (fun t => (t.readV 0, t.readV 15)) = some (2, 1) ∧
    (run1 0x801E (on .shift (regs [(0, 0x40), (1, 0x81)]))).map (fun t => (t.readV 0, t.readV 15)) =
      some (0x80, 0) := by decide
/-- A32 and the corner case NN = 0 of spec/42_alu.md R115: nothing is claimed of the drawn byte. -/
theorem test_rnd_mask_zero : (run1 0xC300 (regs [(3, 9)])).map (fun t => (t.rndIndex, t.pc)) = some (1, 0x202) ∧
    execRnd 3 0 State.reset = .next ({ State.reset with rndIndex := 1 }.writeV 3 (Config.rndByte 0 &&& 0)) :=
  ⟨by decide, rfl⟩
/-- M1. -/
theorem test_ldI : (run1 0xA123 State.reset).map State.i = some 0x123 := by decide
/-- M2, M3. -/
theorem test_addI : (run1 0xF01E { regs [(0, 1)] with i := 0x0FFF }).map State.i = some 0x1000 ∧
    (run1 0xF01E { regs [(0, 2), (15, 9)] with i := 0xFFFF }).map (fun t => (t.i, t.readV 15)) = some (1, 9) := by decide
/-- M5, M6. -/
theorem test_ldF : (run1 0xF029 (regs [(0, 0xFA)])).map State.i = some 0x82 ∧
    (run1 0xF029 (regs [(0, 0)])).map State.i = some 0x50 := by decide
/-- M7, M8. -/
theorem test_ldB : (run1 0xF033 { regs [(0, 129)] with i := 0x300 }).map (fun t => (bytesAt t 0x300 3, t.i)) =
      some ([1, 2, 9], 0x300) ∧
    (run1 0xF033 { regs [(0, 255)] with i := 0xFFE }).map (fun t => bytesAt t 0xFFE 3) = some [2, 5, 5] := by decide
/-- M9. -/
theorem test_ldB_fault : (run1 0xF033 (on .haltOnOOBAccess { regs [(0, 255)] with i := 0xFFE })).map
    (fun t => (bytesAt t 0xFFE 3, t.fault, t.pc, t.icount)) =
      some ([2, 5, 0], some (.outOfBounds 0x1000), 0x202, 0) := by decide
/-- M10. -/
theorem test_storeRegs : (run1 0xF355 { regs [(0, 0x11), (1, 0x22), (2, 0x33), (3, 0x44), (4, 0x55)] with i := 0x400 }).map
    (fun t => (bytesAt t 0x400 5, t.i)) = some ([0x11, 0x22, 0x33, 0x44, 0], 0x400) := by decide
/-- M15, M16. -/
theorem test_storeRegs_edge :
    (run1 0xF355 (on .index (on .haltOnOOBAccess { regs [(0, 1), (1, 2), (2, 3), (3, 4)] with i := 0xFFE }))).map
      (fun t => (bytesAt t 0xFFE 3, t.i, t.fault, t.pc, t.icount)) =
        some ([1, 2, 0], 0x1000, some (.outOfBounds 0x1000), 0x202, 0) ∧
    (run1 0xF155 (on .index { regs [(0, 1), (1, 2)] with i := 0xFFFF })).map (fun t => (bytesAt t 0xFFF 2, t.i)) =
      some ([1, 2], 1) := by decide
/-- M12, M13. -/
theorem test_loadRegs :
    (run1 0xF265 (withBytes 0x400 [9, 8, 7, 6] { regs [(3, 0xEE)] with i := 0x400 })).map
      (fun t => (t.readV 0, t.readV 1, t.readV 2, t.readV 3, t.i)) = some (9, 8, 7, 0xEE, 0x400) ∧
    (run1 0xF265 (on .index (withBytes 0x400 [9, 8, 7, 6] { State.reset with i := 0x400 }))).map State.i =
      some 0x403 := by decide
/-- G1, G2. -/
theorem test_drw_edges :
    (run1 0xD121 (withBytes 0x300 [0xFF] { regs [(1, 60)] with i := 0x300 })).map
      (fun t => (lit t 0, t.readV 15, t.drawPending)) = some ([60, 61, 62, 63], 0, true) ∧
    (run1 0xD121 (on .wrapScreen (withBytes 0x300 [0xFF] { regs [(1, 60)] with i := 0x300 }))).map
      (fun t => (lit t 0, t.readV 15)) = some ([0, 1, 2, 3, 60, 61, 62, 63], 0) := by decide
/-- G6. -/
theorem test_drw_collision :
    (run1 0xD121 (withBytes 0x300 [0xC0]
        { State.reset with i := 0x300, fb := Screen.clear.setPixel 0 1 true })).map
      (fun t => (lit t 0, t.readV 15)) = some ([0], 1) := by decide
/-- G11. -/
theorem test_drw_fault :
    (run1 0xD003 (on .haltOnOOBAccess (withBytes 0xFFE [0x80, 0x80] { regs [(15, 9)] with i := 0xFFE }))).map
      (fun t => (lit t 0 ++ lit t 1 ++ lit t 2, t.readV 15, t.drawPending, t.fault)) =
        some ([0, 0], 9, false, some (.outOfBounds 0x1000)) := by decide
/-- K1, K5. -/
theorem test_skp : (run1 0xE09E (hostKeyDown 5 (regs [(0, 0x15)]))).map State.pc = some 0x204 ∧
    (run1 0xE09E (hostKeyUp 5 (hostKeySnapshot (hostKeyDown 5 (regs [(0, 5)]))))).map State.pc = some 0x202 := by decide
/-- K3, K4. -/
theorem test_sknp : (run1 0xE0A1 (hostKeyDown 5 (regs [(0, 5)]))).map State.pc = some 0x202 ∧
    (run1 0xE0A1 (regs [(0, 5)])).map State.pc = some 0x204 := by decide
/-- K6: keys 3 and 9 released. -/
theorem test_ldVxK :
    (run1 0xF70A (hostKeyUp 9 (hostKeyUp 3 (hostKeySnapshot (hostKeyDown 9 (hostKeyDown 3 State.reset)))))).map
      (fun t => (t.readV 7, t.pc)) = some (3, 0x202) := by decide
/-- K7, K8: a press, a held key. -/
theorem test_ldVxK_waits :
    (run1 0xF70A (hostKeyDown 3 State.reset)).map (fun t => (t.readV 7, t.pc, t.icount)) = some (0, 0x200, 1) ∧
    (run1 0xF70A (hostKeySnapshot (hostKeyDown 3 State.reset))).map (fun t => (t.readV 7, t.pc)) =
      some (0, 0x200) := by decide
/-- K11. -/
theorem test_ldVxDT : (run1 0xF307 { State.reset with dt := 0x2C }).map (fun t => (t.readV 3, t.dt)) =
    some (0x2C, 0x2C) := by decide
/-- K9. -/
theorem test_ldDT : (run1 0xF015 (regs [(0, 3)])).map State.dt = some 3 ∧
    (hostTick { State.reset with dt := 1 }).dt = 0 ∧ (hostTick State.reset).dt = 0 := by decide
/-- K10. -/
theorem test_ldST : (run1 0xF018 (regs [(0, 2)])).map (fun t => (t.st, t.dt)) = some (2, 0) ∧
    (hostTick { State.reset with st := 2 }).st = 1 := by decide

/-! ### Fetch, reset, host operations -/

/-- C17, C19: wrapped fetches. -/
theorem test_fetch_wraps :
    (run1 0x6B2A { State.reset with pc := 0xFFF }).map (fun t => (t.readV 11, t.pc)) = some (0x2A, 0x1001) ∧
    (run1 0x6A07 { State.reset with pc := 0xFFFE }).map (fun t => (t.readV 10, t.pc)) = some (7, 0) := by decide
/-- C18, C20: faulting fetches. -/
theorem test_fetch_faults :
    (run1 0x6B2A (on .haltOnOOBAccess { State.reset with pc := 0xFFF })).map (fun t => (t.fault, t.pc, t.icount)) =
      some (some (.outOfBounds 0x1000), 0xFFF, 0) ∧
    (run1 0x6A07 (on .haltOnOOBAccess { State.reset with pc := 0xFFFE })).map (fun t => (t.fault, t.pc)) =
      some (some (.outOfBounds 0xFFFE), 0xFFFE) := by decide
/-- S2. -/
theorem test_bad_opcode : (run1 0x0000 State.reset).map (fun t => (t.fault, t.pc, t.icount, t.mem)) =
    some (some (.badOpcode 0), 0x202, 0, []) := by decide
/-- spec/70_reset_and_hazards.md R180, R182. -/
theorem test_reset : State.reset.pc = 0x200 ∧ bytesAt State.reset 0x055 5 = [0x20, 0x60, 0x20, 0x20, 0x70] ∧
    bytesAt State.reset 0x09F 2 = [0x80, 0] ∧ State.reset.byteAt 0x04F = 0 ∧
    State.reset.mem.wf State.reset.cfg := by decide
/-- Writing the reset byte back removes the entry (log entry 8). -/
theorem test_memory_canonical :
    Memory.write defaultConfig [(0x300, 7)] 0x300 0 = [] ∧ Memory.write defaultConfig [(0x050, 0)] 0x050 0xF0 = [] ∧
      Memory.write defaultConfig [(0x301, 7)] 0x300 8 = [(0x300, 8), (0x301, 7)] := by decide
/-- Another configuration within the limits of spec/00_scope.md R5: the font at 0xFB0 up to the last cell, programs at
0x600 (R180, R123, R184). -/
theorem test_other_configuration :
    other.cfg.valid ∧ other.pc = 0x600 ∧ other.fontEnd = 4096 ∧ bytesAt other 0xFFB 5 = [0xF0, 0x80, 0xF0, 0x80, 0x80] ∧
      other.byteAt 0x050 = 0 ∧ (run1 0xF029 (other.writeV 0 0x0F)).map State.i = some 0xFFB ∧
      (runOps [.load [0x60, 0x0A], .step] other).readV 0 = 10 ∧ (hostReset Config.quirks0 other).pc = 0x600 := by decide
/-- The limits of a configuration, each at its boundary. -/
theorem test_config_limits :
    { defaultConfig with fontBase := 4016, progBase := 4095 }.valid = true ∧
      { defaultConfig with fontBase := 4017 }.valid = false ∧ { defaultConfig with progBase := 4096 }.valid = false := by
  decide
/-- The codes of spec/60_exceptions.md R150. -/
theorem test_fault_codes : faultCode none = 0 ∧ faultCode (some (.badOpcode 0)) = 1 ∧
    faultCode (some (.stackError .overflow)) = 2 ∧ faultCode (some (.outOfBounds 0)) = 3 ∧
    stackErrorCode .overflow = 0 ∧ stackErrorCode .underflow = 1 := by decide
/-- S1. -/
theorem test_memory_round_trip : (memWrite State.reset 0x1234 0xAB).toOption.map (fun t => (t.byteAt 0x234, t.byteAt 0x1234)) =
      some (0xAB, 0xAB) ∧
    memRead (on .haltOnOOBAccess State.reset) 0x1234 = .error (.outOfBounds 0x1234) := by decide
/-- S8 and P1: three cycles of the source's scenario. -/
theorem test_scenario :
    ((runOps [.load [0x60, 0x0A, 0x61, 0x05, 0x80, 0x14], .run 3] State.reset).readV 0,
      (runOps [.load [0x60, 0x0A, 0x61, 0x05, 0x80, 0x14], .run 3] State.reset).icount) = (15, 3) := by decide
/-- B1: a fault ends the batch. -/
theorem test_run_stops : ((runOps [.run 5] State.reset).fault, (runOps [.run 5] State.reset).pc,
    (runOps [.run 5, .step, .run 100] State.reset).icount) = (some (.badOpcode 0), 0x202, 0) := by decide

/-! ### Witnesses: states and operands that meet the hypotheses of each statement, clause by clause, at the boundaries -/

/-- Reset with `haltOnOOBAccess` on. -/
def strict : State := on .haltOnOOBAccess State.reset

/-- Halted by the first step from reset. -/
def halted : State := { State.reset with pc := 0x202, fault := some (.badOpcode 0) }

/-- By the operation in the default configuration, and the reset state of the configuration whose font ends at 4096. -/
theorem witness_ResetLeavesTheSpecsState :
    defaultConfig.valid = true ∧ halted.cfg = defaultConfig ∧
      applyHostOp (.reset Config.quirks0) halted = .ok State.reset ∧ other.cfg.valid = true ∧
      other = State.resetWith other.cfg Config.quirks0 :=
  ⟨rfl, rfl, rfl, rfl, rfl⟩

theorem witness_ResetMeetsInvariant : other.cfg.valid = true := by decide

/-- A store at 0x300 from an invariant state, and a full stack. -/
theorem witness_StepKeepsInvariant :
    State.Inv { State.reset with i := 0x300, mem := [(0x200, 0xF0), (0x201, 0x55)], stack := List.replicate 16 0 } ∧
    (∃ t, step { State.reset with i := 0x300, mem := [(0x200, 0xF0), (0x201, 0x55)], stack := List.replicate 16 0 } =
      .next t) :=
  ⟨⟨by decide, by decide, by decide, by decide, by decide, by decide⟩, _, rfl⟩

theorem witness_EveryExecutionKeepsInvariant : State.reset.Inv :=
  ⟨by decide, by decide, by decide, by decide, by decide, by decide⟩

theorem witness_EncodeInvertsDecode : decodeWord 0x01E0 = .ok (.cls 1) := by decide

theorem witness_DecodeSelectsRowByMask :
    decodeWord 0x912F = .ok (.sneReg 1 2 0xF) ∧ (0x912F : Word) &&& (rowOf (.sneReg 0 0 0)).2 = (rowOf (.sneReg 0 0 0)).1 := by
  decide

/-- One word of each illegal family, and the decoder's answer to it. -/
theorem witness_IllegalWordsAreExactlyThese :
    decodeWord 0x0FEF = .error (.badOpcode 0x0FEF) ∧ decodeWord 0x8FFF = .error (.badOpcode 0x8FFF) ∧
      decodeWord 0xEFA2 = .error (.badOpcode 0xEFA2) ∧ decodeWord 0xFF66 = .error (.badOpcode 0xFF66) := by decide

theorem witness_AliasesExecuteAsCanonical : (Instr.drw 1 2 3).wellFormed = true := by decide

/-- Halted; a fetch that faults; a bad opcode; an instruction. -/
theorem witness_StepIsFetchDecodeExecuteCount :
    halted.fault = some (.badOpcode 0) ∧ State.reset.fault = none ∧
    fetch { strict with pc := 0xFFF } = .error (.outOfBounds 0x1000) ∧
    fetch State.reset = .ok (0, { State.reset with pc := 0x202 }) ∧ decodeWord 0 = .error (.badOpcode 0) ∧
    decodeWord 0x6105 = .ok (.ldImm 1 5) ∧
    exec (.ldImm 1 5) State.reset = .next (State.reset.writeV 1 5) :=
  ⟨rfl, rfl, rfl, rfl, by decide, by decide, rfl⟩

/-- The last fetchable address under the quirk, 0xFFE. -/
theorem witness_StepRunsDecodedInstruction :
    Reachable { strict with pc := 0xFFE, mem := [(0xFFE, 0x61), (0xFFF, 0x05)] } 0xFFE 2 ∧
    State.byteAt { strict with pc := 0xFFE, mem := [(0xFFE, 0x61), (0xFFF, 0x05)] } 0xFFE = 0x61 ∧
    State.byteAt { strict with pc := 0xFFE, mem := [(0xFFE, 0x61), (0xFFF, 0x05)] } 0xFFF = 0x05 ∧
    decodeWord 0x6105 = .ok (.ldImm 1 5) ∧ (∃ t, exec (.ldImm 1 5) { strict with pc := 0x1000 } = .next t) :=
  ⟨.inr (.inr (by decide)), by decide, by decide, by decide, _, rfl⟩

/-- In bounds at 0xFFE, the low byte out of bounds at 0xFFF, the high byte out of bounds at 0x1000. -/
theorem witness_FetchReadsBigEndian :
    Reachable { strict with pc := 0xFFE } 0xFFE 2 ∧ FirstFault { strict with pc := 0x1000 } 0x1000 0 ∧
      FirstFault { strict with pc := 0xFFF } 0xFFF 1 := by
  unfold Reachable FirstFault
  decide

theorem witness_PlacedWordIsFetched :
    State.reset.mem.wf State.reset.cfg = true ∧ Reachable { strict with pc := 0xFFE } 0xFFE 2 ∧
      Reachable { State.reset with pc := 0xFFFF } 0xFFFF 2 ∧ 0x6105 < 65536 := by
  unfold Reachable
  decide

theorem witness_BadOpcodeLeavesPostFetchState :
    State.reset.fault = none ∧ Reachable State.reset State.reset.pc 2 ∧
      State.reset.byteAt 0x200 = 0 ∧ State.reset.byteAt 0x201 = 0 ∧ decodeWord 0 = .error (.badOpcode 0) :=
  ⟨rfl, .inl rfl, rfl, rfl, by decide⟩

/-- A counted cycle and a faulting one. -/
theorem witness_CycleCountsUnlessItFaults :
    (run1 0x6105 State.reset).map (fun t => (t.fault, t.icount)) = some (none, 1) ∧
      (run1 0x0000 State.reset).map (fun t => (t.fault, t.icount)) = some (some (.badOpcode 0), 0) := by decide

theorem witness_HaltedCoreOnlyResets :
    halted.fault = some (.badOpcode 0) ∧
      applyHostOp (.load [1]) { halted with fault := none } =
        .ok { halted with fault := none, mem := [(0x200, 1)], progEnd := 0x201, romLoaded := true } :=
  ⟨rfl, rfl⟩

/-- Each of the three faults of an execute phase, the stack full with exactly 16 entries. -/
theorem witness_FaultsComeOnlyFromTheirRaisers :
    exec (.call 0x200) { State.reset with stack := List.replicate 16 0 } =
      .next { State.reset with stack := List.replicate 16 0, fault := some (.stackError .overflow) } ∧
    exec (.ret 0) State.reset = .next { State.reset with fault := some (.stackError .underflow) } ∧
    exec (.loadRegs 0) { strict with i := 0x1000 } =
      .next { strict with i := 0x1000, fault := some (.outOfBounds 0x1000) } :=
  ⟨rfl, rfl, rfl⟩

theorem witness_OnlyStoresWriteMemory :
    (∃ t, exec (.ldImm 1 5) State.reset = .next t) ∧ (∀ x, Instr.ldImm 1 5 ≠ .ldB x) ∧
      (∀ x, Instr.ldImm 1 5 ≠ .storeRegs x) :=
  ⟨⟨_, rfl⟩, nofun, nofun⟩

theorem witness_InstructionsLeaveHostState : ∃ t, exec (.drw 0 0 0) State.reset = .next t := ⟨_, rfl⟩

/-- Each register of the statement changed by one of its writers. -/
theorem witness_SpecialStateHasOnlyItsWriters :
    (exec (.ldI 1) State.reset = .next { State.reset with i := 1 } ∧ (1 : Word) ≠ State.reset.i) ∧
    (exec (.ldDT 1) (regs [(1, 3)]) = .next { regs [(1, 3)] with dt := 3 } ∧ (3 : Byte) ≠ (regs [(1, 3)]).dt) ∧
    (exec (.ldST 1) (regs [(1, 3)]) = .next { regs [(1, 3)] with st := 3 } ∧ (3 : Byte) ≠ (regs [(1, 3)]).st) ∧
    (exec (.call 0x300) State.reset = .next { State.reset with stack := [0x200], pc := 0x300 } ∧
      [(0x200 : Word)] ≠ State.reset.stack) ∧
    (exec (.cls 0) { State.reset with fb := Screen.clear.setPixel 3 3 true } = .next State.reset ∧
      Screen.clear ≠ Screen.clear.setPixel 3 3 true) ∧
    (exec (.drw 0 0 0) State.reset = .next { State.reset with drawPending := true } ∧
      true ≠ State.reset.drawPending) ∧
    (exec (.rnd 0 0) State.reset =
        .next ({ State.reset with rndIndex := 1 }.writeV 0 (Config.rndByte 0 &&& 0)) ∧
      1 ≠ State.reset.rndIndex) :=
  ⟨⟨rfl, by decide⟩, ⟨rfl, by decide⟩, ⟨rfl, by decide⟩, ⟨rfl, by decide⟩, ⟨rfl, by decide⟩, ⟨rfl, by decide⟩,
    rfl, by decide⟩

/-- VF changed by a logic instruction under the quirk, by a carry, and as a plain destination. -/
theorem witness_FlagHasOnlyItsWriters :
    (run1 0x8011 (on .resetVF (regs [(15, 7)]))).map (fun t => t.readV 15) = some 0 ∧
      (run1 0x8014 (regs [(0, 255), (1, 1)])).map (fun t => t.readV 15) = some 1 ∧
      (run1 0x6F07 State.reset).map (fun t => t.readV 15) = some 7 := by decide

/-- The last address in bounds and the first out of bounds. -/
theorem witness_MemReadWrapsOrFaults :
    strict.q.haltOnOOBAccess = true ∧ memRead strict 0xFFF = .ok 0 ∧ memRead strict 0x1000 = .error (.outOfBounds 0x1000) ∧
      State.reset.q.haltOnOOBAccess = false ∧ memRead State.reset 0x1050 = .ok 0xF0 := by decide

theorem witness_MemWriteSetsOneCell :
    strict.mem.wf strict.cfg = true ∧ strict.q.haltOnOOBAccess = true ∧ State.reset.q.haltOnOOBAccess = false ∧
      memWrite strict 0xFFF 1 = .ok { strict with mem := [(0xFFF, 1)] } ∧
      memWrite strict 0x1000 1 = .error (.outOfBounds 0x1000) :=
  ⟨by decide, by decide, by decide, rfl, rfl⟩

theorem witness_CanonicalMemoryIsUnique :
    Memory.wf defaultConfig [(0x300, 7)] = true ∧
    Memory.wf defaultConfig (Memory.write defaultConfig [] 0x300 7) = true ∧
    ∀ a, a < 4096 → Memory.read defaultConfig [(0x300, 7)] a =
      Memory.read defaultConfig (Memory.write defaultConfig [] 0x300 7) a :=
  ⟨by decide, by decide, fun _ _ => rfl⟩

theorem witness_ReturnPopsNewestEntry :
    State.reset.stack = [] ∧ State.stack { State.reset with stack := [0x206, 0x300] } = [0x206] ++ [0x300] := by decide

/-- Both settings of the quirk; the top nibble of 0xFFF is 15. -/
theorem witness_JumpsSetPC :
    State.reset.q.jump = false ∧ (on .jump State.reset).q.jump = true ∧
      (15 : Reg).val = (0xFFF : Addr12).toNat / 256 := by decide

/-- 15 entries and 16. -/
theorem witness_CallPushesReturnAddress :
    (State.stack { State.reset with stack := List.replicate 15 0 }).length < 16 ∧
      (State.stack { State.reset with stack := List.replicate 16 0 }).length = 16 := by decide

theorem witness_ReturnUndoesCall :
    (State.stack { State.reset with stack := List.replicate 15 0 }).length < 16 ∧
      (∃ t u : State, exec (.call 0x300) { State.reset with stack := List.replicate 15 0 } = .next t ∧ u.stack = t.stack) :=
  ⟨by decide, _, _, rfl, rfl⟩

/-- Each instruction; both settings of the quirk; X = 15 and X other than 15. -/
theorem witness_LogicWritesVxThenClearsVF :
    (Instr.orReg 15 1 = .orReg 15 1 ∧ or = or) ∧ (Instr.andReg 0 1 = .andReg 0 1 ∧ and = and) ∧
      (Instr.xorReg 0 1 = .xorReg 0 1 ∧ xor = xor) ∧ (on .resetVF State.reset).q.resetVF = true ∧
      State.reset.q.resetVF = false ∧ (0 : Reg) ≠ 15 := by decide

theorem witness_AddWritesSumThenCarry : (0 : Reg) ≠ 15 ∧ (1 : Reg) ≠ 0 ∧ (1 : Reg) ≠ 15 := by decide

/-- Both instructions, with a borrow and with equal operands. -/
theorem witness_SubtractWritesDifferenceThenNoBorrow :
    (Instr.subReg 0 1 = .subReg 0 1 ∧ 5 = ((regs [(0, 5), (1, 10)]).readV 0).toNat ∧
      10 = ((regs [(0, 5), (1, 10)]).readV 1).toNat) ∧
    (Instr.subnReg 0 1 = .subnReg 0 1 ∧ 7 = ((regs [(0, 7), (1, 7)]).readV 1).toNat ∧
      7 = ((regs [(0, 7), (1, 7)]).readV 0).toNat) := by decide

/-- Both settings of the quirk, the source being V[X] and V[Y]. -/
theorem witness_ShiftsWriteResultThenBitOut :
    ((on .shift (regs [(0, 5), (1, 3)])).q.shift = true ∧ 5 = ((on .shift (regs [(0, 5), (1, 3)])).readV 0).toNat) ∧
    ((regs [(0, 5), (1, 3)]).q.shift = false ∧ 3 = ((regs [(0, 5), (1, 3)]).readV 1).toNat) := by decide

theorem witness_RandomByteUnderMask : (0x0F : Byte).getLsbD 4 = false ∧ (1 : Reg) ≠ 0 := by decide

/-- The last base at which all three digits fit, and each digit the first out of bounds. -/
theorem witness_DecimalDigitsStored :
    State.reset.mem.wf State.reset.cfg = true ∧ Reachable { strict with i := 0xFFD } 0xFFD 3 ∧ FirstFault { strict with i := 0x1000 } 0x1000 0 ∧
      FirstFault { strict with i := 0xFFF } 0xFFF 1 ∧ FirstFault { strict with i := 0xFFE } 0xFFE 2 := by
  unfold Reachable FirstFault
  decide

/-- All sixteen registers at the last base where they fit, one register there, and the first and last element the first
out of bounds. -/
theorem witness_RegistersStored :
    strict.mem.wf strict.cfg = true ∧ Reachable { strict with i := 0xFF0 } 0xFF0 (15 + 1) ∧ Reachable { strict with i := 0xFFF } 0xFFF (0 + 1) ∧
      (15 : Reg) ≤ 15 ∧ FirstFault { strict with i := 0xFF1 } 0xFF1 15 ∧ (0 : Reg) ≤ 15 ∧
      FirstFault { strict with i := 0xFFFF } 0xFFFF 0 := by
  unfold Reachable FirstFault
  decide

theorem witness_RegistersLoaded :
    Reachable { strict with i := 0xFF0 } 0xFF0 (15 + 1) ∧ Reachable { State.reset with i := 0xFFFF } 0xFFFF (15 + 1) ∧
      (15 : Reg) ≤ 15 ∧ FirstFault { strict with i := 0xFF1 } 0xFF1 15 ∧ (0 : Reg) ≤ 0 ∧
      FirstFault { strict with i := 0x1000 } 0x1000 0 := by
  unfold Reachable FirstFault
  decide

/-- A store and a load of one register, with another register file in between. -/
theorem witness_StoreThenLoadRestoresRegisters :
    Memory.wf defaultConfig [] = true ∧ Reachable { strict with i := 0xFFF } 0xFFF 1 ∧
      (∃ t u w, exec (.storeRegs 0) { strict with i := 0xFFF } = .next t ∧ u = t.writeV 0 9 ∧ u.mem = t.mem ∧
        u.cfg = defaultConfig ∧ u.q = strict.q ∧ u.i = 0xFFF ∧ exec (.loadRegs 0) u = .next w) :=
  ⟨by decide, .inr (.inr (by decide)), _, _, _, rfl, rfl, rfl, rfl, rfl, rfl, rfl⟩

/-- The tallest sprite at the last base where it fits; a lit pixel that was on, and one that is not lit. -/
theorem witness_DrawXorsSpriteAndFlagsCollision :
    Reachable { strict with i := 0xFF1 } 0xFF1 15 ∧
    SpriteLights { State.reset with i := 0x050, fb := Screen.clear.setPixel 0 3 true } 0 0 1 0 3 ∧
    Screen.pixel (Screen.clear.setPixel 0 3 true) 0 3 = true ∧
    ¬ SpriteLights State.reset 0 0 0 0 0 :=
  ⟨.inr (.inr (by decide)), ⟨0, 3, by decide, by decide, by decide, by decide⟩, by decide,
    fun ⟨_, _, h, _⟩ => absurd h (Nat.not_lt_zero _)⟩

/-- The first row and the last row of the tallest sprite, each the first out of bounds. -/
theorem witness_FaultingDrawKeepsRowsBefore :
    0 < (15 : Nibble).toNat ∧ FirstFault { strict with i := 0x1000 } 0x1000 0 ∧ 14 < (15 : Nibble).toNat ∧
      FirstFault { strict with i := 0xFF2 } 0xFF2 14 := by
  unfold FirstFault
  decide

/-- Glyph 0 drawn twice at (0, 0) on the clear screen. -/
theorem witness_SecondDrawRestoresScreen :
    Reachable { State.reset with i := 0x050 } 0x050 5 ∧
    (∃ t u, exec (.drw 0 1 5) { State.reset with i := 0x050 } = .next t ∧ t.readV 0 = 0 ∧ t.readV 1 = 0 ∧
      exec (.drw 0 1 5) t = .next u) ∧
    SpriteLights { State.reset with i := 0x050 } 0 1 5 0 0 ∧
    (∀ py px, SpriteLights { State.reset with i := 0x050 } 0 1 5 py px →
      State.reset.fb.pixel py px = false) :=
  ⟨.inl rfl, ⟨_, _, rfl, rfl, rfl, rfl⟩, ⟨0, 0, by decide, by decide, by decide, by decide⟩,
    fun _ _ _ => by simp [State.reset, State.resetWith, Screen.clear, Screen.pixel]⟩

/-- The low nibble of 0x15 is key 5; the key down and up. -/
theorem witness_KeySkipsTestKeyNow :
    (5 : KeyId).val = ((hostKeyDown 5 (regs [(0, 0x15)])).readV 0).toNat % 16 ∧
      (hostKeyDown 5 (regs [(0, 0x15)])).keyNow[(5 : KeyId)] = true ∧ (regs [(0, 0x15)]).keyNow[(5 : KeyId)] = false := by
  decide

/-- No edge; keys 3 and 9 released, 3 the lowest; key 15 alone released. -/
theorem witness_KeyWaitLoadsLowestReleased :
    (∀ k : KeyId, ¬ (State.reset.keyPrev[k] = true ∧ State.reset.keyNow[k] = false)) ∧
    ((hostKeyUp 3 (hostKeySnapshot (hostKeyDown 9 (hostKeyDown 3 State.reset)))).keyPrev[(3 : KeyId)] = true ∧
      (hostKeyUp 3 (hostKeySnapshot (hostKeyDown 9 (hostKeyDown 3 State.reset)))).keyNow[(3 : KeyId)] = false) ∧
    (∀ j : KeyId, j < 15 →
      ¬ ((hostKeySnapshot (hostKeyDown 15 State.reset)).keyPrev[j] = true ∧
        (hostKeyUp 15 (hostKeySnapshot (hostKeyDown 15 State.reset))).keyNow[j] = false)) := by decide

theorem witness_WaitingKeyCycleOnlyCounts :
    State.fault { State.reset with mem := [(0x200, 0xFF), (0x201, 0x0A)] } = none ∧
    Reachable { State.reset with mem := [(0x200, 0xFF), (0x201, 0x0A)] } 0x200 2 ∧
    (State.byteAt { State.reset with mem := [(0x200, 0xFF), (0x201, 0x0A)] } 0x200).toNat = 0xF0 + (15 : Reg).val ∧
    State.byteAt { State.reset with mem := [(0x200, 0xFF), (0x201, 0x0A)] } 0x201 = 0x0A ∧
    (∀ k : KeyId, ¬ (State.reset.keyPrev[k] = true ∧ State.reset.keyNow[k] = false)) :=
  ⟨rfl, .inl rfl, by decide, by decide, by decide⟩

/-- Operations of every other kind between the snapshot and the reading, none a KEY_UP. -/
theorem witness_SnapshotClearsReleaseEdges :
    ∀ j : KeyId, HostOp.keyUp j ∉ [HostOp.keyDown 5, .step, .run 3, .tick, .load [0x60], .reset Config.quirks0,
      .keySnapshot, .quirkWrite .jump true, .observe] := by decide

/-- The longest program that fits and the first that does not. -/
theorem witness_LoadCopiesProgram :
    State.reset.cfg.valid = true ∧ State.reset.mem.wf State.reset.cfg = true ∧
      (List.replicate 3584 (0x60 : Byte)).length ≤ 4096 - State.reset.cfg.progBase ∧
      4096 - State.reset.cfg.progBase < (List.replicate 3585 (0x60 : Byte)).length :=
  ⟨rfl, rfl, (List.length_replicate (n := 3584)).le,
    Nat.lt_of_lt_of_eq (by decide : 4096 - State.reset.cfg.progBase < 3585) List.length_replicate.symm⟩

/-- Halted; a cycle that faults, one that does not draw, one that draws under each setting of `displayWait`. -/
theorem witness_RunIsCyclesUntilFaultOrDraw :
    halted.fault = some (.badOpcode 0) ∧ State.reset.fault = none ∧ step State.reset = .next halted ∧
    (run1 0x6105 State.reset).map (fun t => (t.fault, t.drawPending)) = some (none, false) ∧
    (run1 0xD120 (on .displayWait State.reset)).map (fun t => (t.fault, t.drawPending, t.q.displayWait)) =
      some (none, true, true) ∧
    (run1 0xD120 State.reset).map (fun t => (t.fault, t.drawPending, t.q.displayWait)) = some (none, true, false) :=
  ⟨rfl, rfl, rfl, by decide, by decide, by decide⟩

/-- A RUN of one cycle that draws and does not fault. -/
theorem witness_RunConsumesDrawFlag :
    0 < 1 ∧ State.fault { State.reset with mem := [(0x200, 0xD1), (0x201, 0x20)] } = none ∧
    (∃ t, hostRun 1 { State.reset with mem := [(0x200, 0xD1), (0x201, 0x20)] } = .next t ∧ t.fault = none) :=
  ⟨by decide, rfl, _, rfl, rfl⟩

theorem witness_RunSplitsWithoutDisplayWait :
    State.reset.q.displayWait = false ∧ hostRun 1 State.reset = .next halted := ⟨rfl, rfl⟩

end Sys2Proof.Tests
end

/-!
The memory accessors (spec/20_memory.md R41, R42): what MemRead answers, and what MemWrite leaves in every cell.
-/

namespace Sys2Proof.Machine

/-- What every address reads as once MemWrite has set its cell: the byte written at each alias of the cell
(spec/20_memory.md R42), the old byte elsewhere. -/
theorem byteAt_setCell {s : State} (hwf : s.mem.wf s.cfg = true) (a : Nat) (b : Byte) (c : Nat) :
    State.byteAt { s with mem := s.mem.write s.cfg (a % 4096) b } c =
      if c % 4096 = a % 4096 then b else s.byteAt c :=
  Memory.read_write hwf (a % 4096) b (c % 4096)

/-- Settles O28: a completed write is the update of one cell, and `byteAt_setCell` says what each address then reads as. -/
theorem memWriteSetsOneCell : Obligations.MemWriteSetsOneCell := by
  intro s a b hwf
  refine ⟨fun hq ha => memWrite_eq_error.mpr ⟨⟨hq, ha⟩, rfl⟩, fun hin => ?_⟩
  have hread := byteAt_setCell hwf a b
  refine ⟨{ s with mem := s.mem.write s.cfg (a % 4096) b }, memWrite_eq_ok.mpr ⟨hin, rfl⟩, rfl,
    memRead_eq_ok.mpr ⟨hin, ?_⟩, fun c hc => ?_, fun c hc => ?_⟩
  · rw [hread, if_pos rfl]
  · rw [hread, if_pos hc]
  · rw [hread, if_neg hc]

/-- Settles O27: the two outcomes of MemRead, each at exactly the addresses its clause names. -/
theorem memReadWrapsOrFaults : Obligations.MemReadWrapsOrFaults := by
  intro s a
  exact ⟨fun hq ha => memRead_eq_error.mpr ⟨⟨hq, ha⟩, rfl⟩, fun hin => memRead_eq_ok.mpr ⟨hin, rfl⟩⟩

end Sys2Proof.Machine

/-!
The compare skips (spec/41_control_flow.md R93 to R96): a skip on an equality or an inequality test of two bytes, as an
update of `PC` alone.
-/

namespace Sys2Proof.Machine

/-- A skip taken when two bytes are equal (R93, R95). -/
theorem State.skipIf_beq (s : State) (a b : Byte) :
    s.skipIf (a == b) = { s with pc := if a = b then s.pc + 2 else s.pc } := by
  rw [State.skipIf_eq]
  simp only [beq_iff_eq]

/-- A skip taken when two bytes differ (R94, R96). -/
theorem State.skipIf_bne (s : State) (a b : Byte) :
    s.skipIf (a != b) = { s with pc := if a = b then s.pc else s.pc + 2 } := by
  rw [State.skipIf_eq]
  simp only [bne_iff_ne, ite_not]

/-- Settles O34: SE skips on equality and SNE on inequality, in the literal and in the register form. -/
theorem skipsAddTwoWhenTrue : Obligations.SkipsAddTwoWhenTrue := by
  intro x y nn ign s
  refine ⟨?seImm, ?sneImm, ?seReg, ?sneReg⟩
  case seImm => rw [exec_seImm, execSeImm, State.skipIf_beq]
  case sneImm => rw [exec_sneImm, execSneImm, State.skipIf_bne]
  case seReg => rw [exec_seReg, execSeReg, State.skipIf_beq]
  case sneReg => rw [exec_sneReg, execSneReg, State.skipIf_bne]

end Sys2Proof.Machine

/-!
The register instructions (spec/42_alu.md): what the register file reads as after a plain write, after a logical result and
after a result with its flag, and the flags as numbers.
-/

namespace Sys2Proof.Machine

/-! ### The flags as numbers (R100 to R103) -/

theorem flagByte_toNat (f : Bool) : (flagByte f).toNat = f.toNat := by
  cases f <;> rfl

theorem carryFlag_toNat (a b : Byte) : (carryFlag a b).toNat = if a.toNat + b.toNat > 255 then 1 else 0 := by
  rw [carryFlag, Bool.toNat, Bool.cond_decide]

theorem shiftOutRight_toNat (b : Byte) : (shiftOutRight b).toNat = b.toNat % 2 := by
  rw [shiftOutRight, BitVec.getLsbD, Nat.toNat_testBit, Nat.pow_zero, Nat.div_one]

theorem shiftOutLeft_toNat (b : Byte) : (shiftOutLeft b).toNat = b.toNat / 128 := by
  have := b.isLt
  rw [shiftOutLeft, BitVec.getLsbD, Nat.toNat_testBit]
  omega

/-! ### The shared writes -/

namespace State

variable (s : State)

/-- A plain write of `V[x]` (R104 to R106): no register but `V[x]`, and nothing but the register file. -/
theorem next_writeV (x : Reg) (b : Byte) :
    ∃ t, (.next (s.writeV x b) : Result) = .next t ∧ t = { s with v := t.v } ∧ t.readV x = b ∧
      ∀ r, r ≠ x → t.readV r = s.readV r :=
  ⟨_, rfl, rfl, s.readV_writeV_same x b, fun _ hr => s.readV_writeV_other hr.symm b⟩

/-- VF after a logical result under `resetVF`, whatever the destination (R107). -/
theorem readV_writeLogic_vf (x : Reg) (r : Byte) (hq : s.q.resetVF = true) : (s.writeLogic x r).readV 15 = 0 := by
  rw [writeLogic, if_pos hq, readV_writeV_same]

/-- The registers that a logical result leaves to its plain write (R107): all but VF, and VF too without `resetVF`. -/
theorem readV_writeLogic (x y : Reg) (r : Byte) (h : s.q.resetVF = false ∨ y ≠ 15) :
    (s.writeLogic x r).readV y = if x = y then r else s.readV y := by
  cases hq : s.q.resetVF with
  | false => rw [writeLogic, hq, if_neg Bool.false_ne_true, readV_writeV]
  | true =>
    have hy : vf ≠ y := (h.resolve_left (by simp [hq])).symm
    rw [writeLogic, if_pos hq, readV_writeV_other _ hy, readV_writeV]

/-- A logical result whose bits are `f` of the operands' bits (R107 to R109). -/
theorem next_writeLogic (x y : Reg) (b : Byte) (f : Bool → Bool → Bool)
    (hbit : ∀ k, k < 8 → b.getLsbD k = f ((s.readV x).getLsbD k) ((s.readV y).getLsbD k)) :
    ∃ t, (.next (s.writeLogic x b) : Result) = .next t ∧ t = { s with v := t.v } ∧
      (s.q.resetVF = true → t.readV 15 = 0) ∧
      ((s.q.resetVF = false ∨ x ≠ 15) → ∀ k, k < 8 →
        (t.readV x).getLsbD k = f ((s.readV x).getLsbD k) ((s.readV y).getLsbD k)) ∧
      (∀ r, r ≠ x → (s.q.resetVF = false ∨ r ≠ 15) → t.readV r = s.readV r) := by
  refine ⟨_, rfl, by rw [writeLogic_eq], s.readV_writeLogic_vf x b, fun h k hk => ?_, fun r hr h => ?_⟩
  · rw [s.readV_writeLogic x x b h, if_pos rfl, hbit k hk]
  · rw [s.readV_writeLogic x r b h, if_neg hr.symm]

/-- A result and then its flag, as the numbers `n` and `m` (R100): VF takes the flag whatever the destination, and any
other destination takes the result. -/
theorem next_writeWithFlag (x : Reg) (b : Byte) (f : Bool) {m n : Nat} (hflag : f.toNat = m) (hresult : b.toNat = n) :
    ∃ t, (.next (s.writeWithFlag x b f) : Result) = .next t ∧ t = { s with v := t.v } ∧
      (t.readV 15).toNat = m ∧ (x ≠ 15 → (t.readV x).toNat = n) ∧
      (∀ r, r ≠ x → r ≠ 15 → t.readV r = s.readV r) := by
  refine ⟨_, rfl, s.writeWithFlag_eq x b f, ?_, fun hx => ?_, fun r hr hvf => ?_⟩
  · rw [readV_writeWithFlag_vf, flagByte_toNat, hflag]
  · rw [s.readV_writeWithFlag x x b f hx, if_pos rfl, hresult]
  · rw [s.readV_writeWithFlag x r b f hvf, if_neg hr.symm]

/-- The source of a shift as the number that the `shift` quirk selects (R112, R114). -/
theorem shiftSource_toNat {x y : Reg} {src : Nat} (hx : s.q.shift = true → src = (s.readV x).toNat)
    (hy : s.q.shift = false → src = (s.readV y).toNat) : (s.shiftSource x y).toNat = src := by
  cases hq : s.q.shift with
  | true => rw [shiftSource, if_pos hq, hx hq]
  | false => rw [shiftSource, hq, if_neg Bool.false_ne_true, hy hq]

end State

/-! ### The instructions -/

/-- Settles O35: each of the three is one plain write of `V[X]`. -/
theorem loadsAndAddLiteralWriteVx : Obligations.LoadsAndAddLiteralWriteVx := by
  intro x y nn s
  refine ⟨s.next_writeV x nn, ?addImm, s.next_writeV x (s.readV y)⟩
  case addImm =>
    obtain ⟨t, hexec, hframe, hx, hothers⟩ := s.next_writeV x (s.readV x + nn)
    exact ⟨t, hexec, hframe, by rw [hx, BitVec.toNat_add], hothers⟩

/-- Settles O36: the three logical results are bit by bit what their names say. -/
theorem logicWritesVxThenClearsVF : Obligations.LogicWritesVxThenClearsVF := by
  rintro x y s i f (⟨rfl, rfl⟩ | ⟨rfl, rfl⟩ | ⟨rfl, rfl⟩)
  case inl => exact s.next_writeLogic x y _ or fun _ _ => BitVec.getLsbD_or
  case inr.inl => exact s.next_writeLogic x y _ and fun _ _ => BitVec.getLsbD_and
  case inr.inr => exact s.next_writeLogic x y _ xor fun _ _ => BitVec.getLsbD_xor

/-- Settles O37: the sum, then the carry of the old operands. -/
theorem addWritesSumThenCarry : Obligations.AddWritesSumThenCarry := by
  intro x y s
  exact s.next_writeWithFlag x _ _ (carryFlag_toNat _ _) (BitVec.toNat_add _ _)

/-- Settles O39: the shifted source, then the bit that the shift moves out of it. -/
theorem shiftsWriteResultThenBitOut : Obligations.ShiftsWriteResultThenBitOut := by
  intro x y s src hx hy
  have hsrc := s.shiftSource_toNat hx hy
  constructor
  case left =>
    refine s.next_writeWithFlag x _ _ (hsrc ▸ shiftOutRight_toNat _) ?_
    rw [BitVec.toNat_ushiftRight, hsrc, Nat.shiftRight_eq_div_pow, Nat.pow_one]
  case right =>
    refine s.next_writeWithFlag x _ _ (hsrc ▸ shiftOutLeft_toNat _) ?_
    rw [BitVec.toNat_shiftLeft, hsrc, Nat.shiftLeft_eq, Nat.pow_one]

end Sys2Proof.Machine

/-!
LD B,Vx (spec/43_index_memory.md R124): what the store of the first digits of a register leaves, in memory and elsewhere.
-/

namespace Sys2Proof.Machine

/-! ### The digits -/

@[simp] theorem bcdDigits_length (b : Byte) : (bcdDigits b).length = 3 := rfl

theorem bcdDigits_hundreds_toNat (b : Byte) : (bcdDigits b)[0].toNat = b.toNat / 100 :=
  (BitVec.toNat_ofNat _ 8).trans (Nat.mod_eq_of_lt (by omega))

theorem bcdDigits_tens_toNat (b : Byte) : (bcdDigits b)[1].toNat = b.toNat / 10 % 10 :=
  (BitVec.toNat_ofNat _ 8).trans (Nat.mod_eq_of_lt (by omega))

theorem bcdDigits_ones_toNat (b : Byte) : (bcdDigits b)[2].toNat = b.toNat % 10 :=
  (BitVec.toNat_ofNat _ 8).trans (Nat.mod_eq_of_lt (by omega))

/-! ### The store -/

/-- `t` is `s` with the first `k` decimal digits of `V[x]` stored from `I` up, in the order of R124, and nothing else
changed. -/
structure DigitsStored (x : Reg) (k : Nat) (s t : State) : Prop where
  frame : t = { s with mem := t.mem }
  hundreds : 0 < k → (t.byteAt s.i.toNat).toNat = (s.readV x).toNat / 100
  tens : 1 < k → (t.byteAt (s.i.toNat + 1)).toNat = (s.readV x).toNat / 10 % 10
  ones : 2 < k → (t.byteAt (s.i.toNat + 2)).toNat = (s.readV x).toNat % 10
  others : ∀ a, (∀ j, j < k → a % 4096 ≠ (s.i.toNat + j) % 4096) → t.byteAt a = s.byteAt a

/-- The store of the first `k` digits completes when none of its accesses faults. -/
theorem storeBytes_take_bcdDigits (x : Reg) {k : Nat} {s : State} (hwf : s.mem.wf s.cfg = true) (hk : k ≤ 3)
    (hin : ∀ j, j < k → s.q.haltOnOOBAccess = false ∨ s.i.toNat + j < 4096) :
    ∃ t, storeBytes false s.i 0 ((bcdDigits (s.readV x)).take k) s = .done t ∧ DigitsStored x k s t := by
  have hlen : ((bcdDigits (s.readV x)).take k).length = k := List.length_take_of_le hk
  obtain ⟨t, hstore, -, hframe, hbytes, hothers⟩ :=
    storeBytes_done false s.i 0 _ s hwf (hlen.trans_le (by omega)) fun j hj => by simpa using hin j (hlen ▸ hj)
  have hbyte (j : Nat) (hj : j < k) : t.byteAt (s.i.toNat + j) = (bcdDigits (s.readV x))[j]'(hj.trans_le hk) := by
    have hb := hbytes j (hlen.symm ▸ hj)
    rwa [Nat.zero_add, List.getElem_take] at hb
  refine ⟨t, hstore, ?frame, fun h => ?hundreds, fun h => ?tens, fun h => ?ones, fun a ha => ?others⟩
  case frame => simpa using hframe
  case hundreds => rw [← Nat.add_zero s.i.toNat, hbyte 0 h, bcdDigits_hundreds_toNat]
  case tens => rw [hbyte 1 h, bcdDigits_tens_toNat]
  case ones => rw [hbyte 2 h, bcdDigits_ones_toNat]
  case others => exact hothers a fun j hj => by simpa using ha j (hlen ▸ hj)

/-- LD B,Vx with every access in bounds or wrapping: all three digits. -/
theorem execLdB_of_reachable (x : Reg) {s : State} (hwf : s.mem.wf s.cfg = true) (h : Reachable s s.i 3) :
    ∃ t, execLdB x s = .next t ∧ DigitsStored x 3 s t := by
  obtain ⟨t, hstore, ht⟩ := storeBytes_take_bcdDigits x hwf le_rfl fun _ => h.inBounds
  exact ⟨t, congrArg finish hstore, ht⟩

/-- LD B,Vx whose access `k` is the first to fault: the digits before it, and then the fault is taken. -/
theorem execLdB_of_firstFault (x : Reg) {k : Nat} {s : State} (hwf : s.mem.wf s.cfg = true) (hk : k < 3)
    (h : FirstFault s s.i k) :
    ∃ t, execLdB x s = .next (t.raise (.outOfBounds (s.i.toNat + k))) ∧ DigitsStored x k s t := by
  obtain ⟨hq, hout, hin⟩ := h
  obtain ⟨t, hstore, ht⟩ := storeBytes_take_bcdDigits x hwf hk.le fun j hj => .inr (hin j hj)
  obtain ⟨u, hraised, hbefore⟩ := storeBytes_raised false s.i 0 k (bcdDigits (s.readV x)) s hk hq
    (by simpa using hout) (by simpa using hin)
  obtain rfl : t = u := Progress.done.inj (hstore.symm.trans hbefore)
  rw [Nat.zero_add] at hraised
  exact ⟨t, congrArg finish hraised, ht⟩

/-- Settles O42: a store that completes leaves all three digits, and one that faults at access `k` the first `k`. -/
theorem decimalDigitsStored : Obligations.DecimalDigitsStored := by
  intro x s hwf
  refine ⟨fun hreach => ?complete, fun k hk hfault => ?faulting⟩
  case complete =>
    obtain ⟨t, hexec, hframe, hhundreds, htens, hones, hothers⟩ := execLdB_of_reachable x hwf hreach
    exact ⟨t, hexec, hframe, hhundreds (by decide), htens (by decide), hones (by decide), hothers⟩
  case faulting =>
    obtain ⟨t, hexec, hframe, hhundreds, htens, -, hothers⟩ := execLdB_of_firstFault x hwf hk hfault
    exact ⟨_, hexec, congrArg (State.raise · _) hframe, hhundreds, htens, hothers⟩

end Sys2Proof.Machine

/-!
CLS (spec/44_display.md R130): the screen it leaves, and everything else as it was.
-/

namespace Sys2Proof.Machine

/-- Settles O46: CLS puts the blank screen in place of the frame buffer, whatever its ignored bits, and writes no other
field of the state. -/
theorem clearScreenTurnsPixelsOff : Obligations.ClearScreenTurnsPixelsOff := by
  intro ign s
  have hexec : exec (.cls ign) s = .next { s with fb := Screen.clear } := exec_cls s ign
  exact ⟨_, hexec, rfl, Screen.pixel_clear⟩

end Sys2Proof.Machine

/-!
The timer instructions (spec/45_keys_timers.md R143 to R145): the byte each one copies, and everything else as it was.
-/

namespace Sys2Proof.Machine

/-- Settles O54: the read of DT is one plain write of `V[X]`, and each timer write puts `V[X]` in one field of the state. -/
theorem timerTransfers : Obligations.TimerTransfers := by
  intro x s
  refine ⟨?readDT, ?writeDT, ?writeST⟩
  case readDT =>
    rw [exec_ldVxDT]
    exact s.next_writeV x s.dt
  case writeDT => exact exec_ldDT s x
  case writeST => exact exec_ldST s x

end Sys2Proof.Machine

/-!
The decode phase's fault (spec/60_exceptions.md R151): a cycle whose fetched word decodes to no instruction.
-/

namespace Sys2Proof.Machine

/-- A cycle that ends in the decode phase (R151): the fault is taken on the state that the fetch left. -/
theorem step_of_decodeWord_error {s t : State} {op : Word} {e : DecodeError} (hfault : s.fault = none)
    (hfetch : fetch s = .ok (op, t)) (hdecode : decodeWord op = .error e) :
    step s = .next (t.raise (.badOpcode op)) := by
  simp only [step, hfault, hfetch, hdecode, raiseFault]

/-- Settles O18: the fetch completes and moves only `PC`; its word is the one that does not decode. -/
theorem badOpcodeLeavesPostFetchState : Obligations.BadOpcodeLeavesPostFetchState := by
  intro s w hfault hreach hw hillegal
  have hfetch : fetch s = .ok (w, s.setPC (s.pc + 2)) := hw ▸ fetch_eq_ok hreach
  cases hdecode : decodeWord w with
  | ok i => exact absurd hdecode (hillegal i)
  | error e => exact step_of_decodeWord_error hfault hfetch hdecode

end Sys2Proof.Machine

/-!
The execute phase (spec/40_cycle.md R83) said once: which fields of the state each kind of instruction can write, and
what can stand in them. The whole-machine rules and the invariant follow by cases on `Effect`.
-/

namespace Sys2Proof.Machine

/-! ### What an execute phase can do -/

/-- The latch after a transfer of several bytes: as before, or holding the fault of an access out of bounds under
`haltOnOOBAccess` (spec/60_exceptions.md R153). -/
def TransferLatch (s : State) (latch : Option Fault) : Prop :=
  latch = s.fault ∨ ∃ a, latch = some (.outOfBounds a) ∧ s.q.haltOnOOBAccess = true ∧ 4096 ≤ a

/-- What instruction `i` can make of `s`: one constructor for each set of fields an instruction writes. -/
inductive Effect (i : Instr) (s : State) : State → Prop
  /-- The jumps, the skips and a waiting LD Vx,K: no whole-machine rule names the writers of PC. -/
  | movesPC (a : Word) : Effect i s (s.setPC a)
  | setsIndex (a : Word) (hi : (∃ nnn, i = .ldI nnn) ∨ (∃ x, i = .addI x) ∨ ∃ x, i = .ldF x) : Effect i s (s.setI a)
  | writesReg (x : Reg) (b : Byte)
      (hi : (∃ nn, i = .ldImm x nn ∨ i = .addImm x nn) ∨ (∃ y, i = .ldReg x y) ∨ i = .ldVxDT x ∨ i = .ldVxK x) :
      Effect i s (s.writeV x b)
  | draws (x : Reg) (nn b : Byte) (hi : i = .rnd x nn) :
      Effect i s ({ s with rndIndex := s.rndIndex + 1 }.writeV x b)
  | logic (x y : Reg) (b : Byte) (hi : i = .orReg x y ∨ i = .andReg x y ∨ i = .xorReg x y) :
      Effect i s { s with v := (s.writeLogic x b).v }
  | arith (x y : Reg) (b : Byte) (flag : Bool)
      (hi : i = .addReg x y ∨ i = .subReg x y ∨ i = .subnReg x y ∨ i = .shrReg x y ∨ i = .shlReg x y) :
      Effect i s (s.writeWithFlag x b flag)
  | clears (ign : Nibble) (hi : i = .cls ign) : Effect i s { s with fb := Screen.clear }
  | setsDelay (x : Reg) (b : Byte) (hi : i = .ldDT x) : Effect i s { s with dt := b }
  | setsSound (x : Reg) (b : Byte) (hi : i = .ldST x) : Effect i s { s with st := b }
  | calls (nnn : Addr12) (hi : i = .call nnn) (hroom : s.stack.length < 16) :
      Effect i s ((s.push s.pc).setPC (zext12 nnn))
  | overflows (nnn : Addr12) (hi : i = .call nnn) (hfull : 16 ≤ s.stack.length) :
      Effect i s (s.raise (.stackError .overflow))
  | returns (ign : Nibble) (a : Word) (hi : i = .ret ign) (htop : s.stack.getLast? = some a) :
      Effect i s { s with stack := s.stack.dropLast, pc := a }
  | underflows (ign : Nibble) (hi : i = .ret ign) (hempty : s.stack = []) :
      Effect i s (s.raise (.stackError .underflow))
  | drawn (x y : Reg) (n : Nibble) (fb : Screen) (flag : Bool) (hi : i = .drw x y n) :
      Effect i s ({ s with fb := fb, drawPending := true }.writeV vf (flagByte flag))
  | drawFaults (x y : Reg) (n : Nibble) (fb : Screen) (latch : Option Fault) (hi : i = .drw x y n)
      (hlatch : TransferLatch s latch) : Effect i s { s with fb := fb, fault := latch }
  | stored (m : Memory) (a : Word) (latch : Option Fault) (hi : (∃ x, i = .ldB x) ∨ ∃ x, i = .storeRegs x)
      (hwf : s.mem.wf s.cfg = true → m.wf s.cfg = true) (ha : a ≠ s.i → s.q.index = true ∧ ∃ x, i = .storeRegs x)
      (hlatch : TransferLatch s latch) : Effect i s { s with mem := m, i := a, fault := latch }
  | loaded (x : Reg) (v : Vector Byte 16) (a : Word) (latch : Option Fault) (hi : i = .loadRegs x)
      (hv : ∀ r : Reg, x < r → v[r] = s.v[r]) (ha : a ≠ s.i → s.q.index = true)
      (hlatch : TransferLatch s latch) : Effect i s { s with v := v, i := a, fault := latch }

/-- A store transfer as the end of a cycle (spec/43_index_memory.md R124, R125). -/
theorem finish_storeBytes (bump : Bool) (bs : List Byte) (s : State) :
    ∃ m a latch, finish (storeBytes bump s.i 0 bs s) = .next { s with mem := m, i := a, fault := latch } ∧
      (s.mem.wf s.cfg = true → m.wf s.cfg = true) ∧ (a ≠ s.i → bump = true) ∧ TransferLatch s latch := by
  rcases storeBytes_frame bump s.i 0 bs s with ⟨t, hstore, ht, hi, hwf⟩ | ⟨t, a, hstore, ht, hi, hwf, hq, ha⟩
  · refine ⟨t.mem, t.i, s.fault, ?_, fun h => ?_, fun ha => Bool.eq_true_of_not_eq_false (mt hi ha), .inl rfl⟩
    · rw [hstore]
      exact congrArg Host.Outcome.next ht
    · rw [ht] at hwf
      exact hwf h
  · refine ⟨t.mem, t.i, some (.outOfBounds a), ?_, fun h => ?_,
      fun ha => Bool.eq_true_of_not_eq_false (mt hi ha), .inr ⟨a, rfl, hq, ha⟩⟩
    · rw [hstore]
      exact congrArg (fun u : State => Host.Outcome.next (u.raise (.outOfBounds a))) ht
    · rw [ht] at hwf
      exact hwf h

/-- A load transfer as the end of a cycle (spec/43_index_memory.md R126). -/
theorem finish_loadBytes (bump : Bool) (rs : List Reg) (s : State) :
    ∃ v a latch, finish (loadBytes bump s.i rs s) = .next { s with v := v, i := a, fault := latch } ∧
      (∀ r : Reg, r ∉ rs → v[r] = s.v[r]) ∧ (a ≠ s.i → bump = true) ∧ TransferLatch s latch := by
  rcases loadBytes_frame bump s.i rs s with ⟨t, hload, ht, hi, hv⟩ | ⟨t, a, hload, ht, hi, hv, hq, ha⟩
  · refine ⟨t.v, t.i, s.fault, ?_, hv, fun ha => Bool.eq_true_of_not_eq_false (mt hi ha), .inl rfl⟩
    rw [hload]
    exact congrArg Host.Outcome.next ht
  · refine ⟨t.v, t.i, some (.outOfBounds a), ?_, hv,
      fun ha => Bool.eq_true_of_not_eq_false (mt hi ha), .inr ⟨a, rfl, hq, ha⟩⟩
    rw [hload]
    exact congrArg (fun u : State => Host.Outcome.next (u.raise (.outOfBounds a))) ht

/-- DRW by the frame of its rows (spec/44_display.md R131, R136). -/
theorem execDrw_effect (x y : Reg) (n : Nibble) (s : State) :
    ∃ t, execDrw x y n s = .next t ∧ Effect (.drw x y n) s t := by
  unfold execDrw
  rcases blitRows_frame ((s.readV x).toNat % Config.screenW) ((s.readV y).toNat % Config.screenH) s.i
    (List.range n.toNat) false s with ⟨t, flag, hblit, ht⟩ | ⟨t, a, hblit, ht, hq, ha⟩
  · rw [hblit]
    refine ⟨t, rfl, ?_⟩
    rw [ht]
    exact .drawn x y n t.fb flag rfl
  · rw [hblit]
    refine ⟨t.raise (.outOfBounds a), rfl, ?_⟩
    rw [ht]
    exact .drawFaults x y n t.fb (some (.outOfBounds a)) rfl (.inr ⟨a, rfl, hq, ha⟩)

/-- CALL (spec/41_control_flow.md R92). -/
theorem execCall_effect (nnn : Addr12) (s : State) : ∃ t, execCall nnn s = .next t ∧ Effect (.call nnn) s t := by
  unfold execCall
  split
  case isTrue hroom => exact ⟨_, rfl, .calls nnn rfl hroom⟩
  case isFalse hfull => exact ⟨_, rfl, .overflows nnn rfl (Nat.not_lt.mp hfull)⟩

/-- RET (spec/41_control_flow.md R90). -/
theorem execRet_effect (ign : Nibble) (s : State) : ∃ t, execRet s = .next t ∧ Effect (.ret ign) s t := by
  unfold execRet State.pop?
  cases htop : s.stack.getLast? with
  | none => exact ⟨_, rfl, .underflows ign rfl (List.getLast?_eq_none_iff.mp htop)⟩
  | some a => exact ⟨_, rfl, .returns ign a rfl htop⟩

/-- LD Vx,K (spec/45_keys_timers.md R142). -/
theorem execLdVxK_effect (x : Reg) (s : State) : ∃ t, execLdVxK x s = .next t ∧ Effect (.ldVxK x) s t := by
  unfold execLdVxK
  cases s.releasedKey with
  | none => exact ⟨_, rfl, .movesPC _⟩
  | some k => exact ⟨_, rfl, .writesReg x _ (.inr (.inr (.inr rfl)))⟩

/-- The skips (spec/41_control_flow.md R98). -/
theorem skipIf_effect (i : Instr) (c : Bool) (s : State) : Effect i s (s.skipIf c) := by
  rw [State.skipIf_eq]
  exact .movesPC _

/-- A logical result (spec/42_alu.md R107) as a write of the register file alone. -/
theorem State.writeLogic_frame (s : State) (x : Reg) (b : Byte) :
    s.writeLogic x b = { s with v := (s.writeLogic x b).v } := by
  rw [writeLogic_eq]

/-- Every execute phase answers a next state, and `Effect` says which. -/
theorem exec_effect (i : Instr) (s : State) : ∃ t, exec i s = .next t ∧ Effect i s t := by
  cases i with
  | cls ign => exact ⟨_, rfl, .clears ign rfl⟩
  | ret ign => exact execRet_effect ign s
  | jp nnn => exact ⟨_, rfl, .movesPC _⟩
  | call nnn => exact execCall_effect nnn s
  | seImm | sneImm | seReg | sneReg | skp | sknp => exact ⟨_, rfl, skipIf_effect _ _ s⟩
  | ldImm x nn => exact ⟨_, rfl, .writesReg x _ (.inl ⟨nn, .inl rfl⟩)⟩
  | addImm x nn => exact ⟨_, rfl, .writesReg x _ (.inl ⟨nn, .inr rfl⟩)⟩
  | ldReg x y => exact ⟨_, rfl, .writesReg x _ (.inr (.inl ⟨y, rfl⟩))⟩
  | orReg x y | andReg x y | xorReg x y =>
    exact ⟨_, congrArg Host.Outcome.next (s.writeLogic_frame x _), .logic x y _ (by simp)⟩
  | addReg x y | subReg x y | shrReg x y | subnReg x y | shlReg x y => exact ⟨_, rfl, .arith x y _ _ (by simp)⟩
  | ldI nnn => exact ⟨_, rfl, .setsIndex _ (.inl ⟨nnn, rfl⟩)⟩
  | jpV0 nnn => exact ⟨_, rfl, .movesPC _⟩
  | rnd x nn => exact ⟨_, rfl, .draws x nn _ rfl⟩
  | drw x y n => exact execDrw_effect x y n s
  | ldVxDT x => exact ⟨_, rfl, .writesReg x _ (.inr (.inr (.inl rfl)))⟩
  | ldVxK x => exact execLdVxK_effect x s
  | ldDT x => exact ⟨_, rfl, .setsDelay x _ rfl⟩
  | ldST x => exact ⟨_, rfl, .setsSound x _ rfl⟩
  | addI x => exact ⟨_, rfl, .setsIndex _ (.inr (.inl ⟨x, rfl⟩))⟩
  | ldF x => exact ⟨_, rfl, .setsIndex _ (.inr (.inr ⟨x, rfl⟩))⟩
  | ldB x =>
    obtain ⟨m, a, latch, hexec, hwf, ha, hlatch⟩ := finish_storeBytes false (bcdDigits (s.readV x)) s
    exact ⟨_, hexec, .stored m a latch (.inl ⟨x, rfl⟩) hwf (fun h => absurd (ha h) Bool.false_ne_true) hlatch⟩
  | storeRegs x =>
    obtain ⟨m, a, latch, hexec, hwf, ha, hlatch⟩ := finish_storeBytes s.q.index ((regsUpTo x).map s.readV) s
    exact ⟨_, hexec, .stored m a latch (.inr ⟨x, rfl⟩) hwf (fun h => ⟨ha h, x, rfl⟩) hlatch⟩
  | loadRegs x =>
    obtain ⟨v, a, latch, hexec, hv, ha, hlatch⟩ := finish_loadBytes s.q.index (regsUpTo x) s
    exact ⟨_, hexec, .loaded x v a latch rfl
      (fun r hr => hv r fun hmem => absurd ((mem_regsUpTo x r).mp hmem) (not_le.mpr hr)) ha hlatch⟩

/-- The state that an execute phase answers is an effect of its instruction. -/
theorem effect_of_exec {i : Instr} {s t : State} (h : exec i s = .next t) : Effect i s t := by
  obtain ⟨u, hu, heffect⟩ := exec_effect i s
  obtain rfl : t = u := Host.Outcome.next.inj (h.symm.trans hu)
  exact heffect

end Sys2Proof.Machine

/-!
Who writes what (spec/10_state.md, spec/60_exceptions.md): the rules that hold of every instruction, each by cases on
`Effect`.
-/

namespace Sys2Proof.Machine

/-! ### The latch, memory and the host's state -/

/-- The latch holds what it held, or one of the three faults of an execute phase, by one of its raisers (R152, R153). -/
theorem Effect.latch {i : Instr} {s t : State} (h : Effect i s t) :
    t.fault = s.fault ∨
    (t.fault = some (.stackError .overflow) ∧ (∃ nnn, i = .call nnn) ∧ 16 ≤ s.stack.length) ∨
    (t.fault = some (.stackError .underflow) ∧ (∃ ign, i = .ret ign) ∧ s.stack = []) ∨
    (∃ a, t.fault = some (.outOfBounds a) ∧ s.q.haltOnOOBAccess = true ∧ 4096 ≤ a ∧
      ((∃ x y n, i = .drw x y n) ∨ (∃ x, i = .ldB x) ∨ (∃ x, i = .storeRegs x) ∨ ∃ x, i = .loadRegs x)) := by
  cases h with
  | overflows nnn hi hfull => exact .inr (.inl ⟨rfl, ⟨nnn, hi⟩, hfull⟩)
  | underflows ign hi hempty => exact .inr (.inr (.inl ⟨rfl, ⟨ign, hi⟩, hempty⟩))
  | drawFaults x y n _ _ hi hlatch =>
    exact hlatch.imp_right fun ⟨a, hf, hq, ha⟩ => .inr (.inr ⟨a, hf, hq, ha, .inl ⟨x, y, n, hi⟩⟩)
  | stored _ _ _ hi _ _ hlatch =>
    exact hlatch.imp_right fun ⟨a, hf, hq, ha⟩ =>
      .inr (.inr ⟨a, hf, hq, ha, .inr (hi.imp_right .inl)⟩)
  | loaded x _ _ _ hi _ _ hlatch =>
    exact hlatch.imp_right fun ⟨a, hf, hq, ha⟩ => .inr (.inr ⟨a, hf, hq, ha, .inr (.inr (.inr ⟨x, hi⟩))⟩)
  | _ => exact .inl rfl

/-- The two stores alone write memory (spec/20_memory.md R46). -/
theorem Effect.mem {i : Instr} {s t : State} (h : Effect i s t) :
    t.mem = s.mem ∨ (∃ x, i = .ldB x) ∨ ∃ x, i = .storeRegs x := by
  cases h with
  | stored _ _ _ hi => exact .inr hi
  | _ => exact .inl rfl

/-- What belongs to the host (R21, R23, R27, R28): no instruction writes it. -/
theorem Effect.hostState {i : Instr} {s t : State} (h : Effect i s t) :
    t.keyNow = s.keyNow ∧ t.keyPrev = s.keyPrev ∧ t.q = s.q ∧ t.romLoaded = s.romLoaded ∧ t.icount = s.icount ∧
    t.fontEnd = s.fontEnd ∧ t.progEnd = s.progEnd ∧ t.cfg = s.cfg := by
  cases h <;> exact ⟨rfl, rfl, rfl, rfl, rfl, rfl, rfl, rfl⟩

/-! ### The registers with few writers (R16 to R20, R26) -/

section Writers

variable {i : Instr} {s t : State} (h : Effect i s t)
include h

theorem Effect.index_writers (hne : t.i ≠ s.i) :
    (∃ nnn, i = .ldI nnn) ∨ (∃ x, i = .addI x) ∨ (∃ x, i = .ldF x) ∨
      (s.q.index = true ∧ ((∃ x, i = .storeRegs x) ∨ ∃ x, i = .loadRegs x)) := by
  cases h with
  | setsIndex a hi => exact hi.imp_right (Or.imp_right .inl)
  | stored _ _ _ _ _ ha =>
    obtain ⟨hq, hstore⟩ := ha hne
    exact .inr (.inr (.inr ⟨hq, .inl hstore⟩))
  | loaded x _ _ _ hi _ ha => exact .inr (.inr (.inr ⟨ha hne, .inr ⟨x, hi⟩⟩))
  | _ => exact absurd rfl hne

theorem Effect.dt_writers (hne : t.dt ≠ s.dt) : ∃ x, i = .ldDT x := by
  cases h with
  | setsDelay x _ hi => exact ⟨x, hi⟩
  | _ => exact absurd rfl hne

theorem Effect.st_writers (hne : t.st ≠ s.st) : ∃ x, i = .ldST x := by
  cases h with
  | setsSound x _ hi => exact ⟨x, hi⟩
  | _ => exact absurd rfl hne

theorem Effect.stack_writers (hne : t.stack ≠ s.stack) : (∃ nnn, i = .call nnn) ∨ ∃ ign, i = .ret ign := by
  cases h with
  | calls nnn hi => exact .inl ⟨nnn, hi⟩
  | returns ign _ hi => exact .inr ⟨ign, hi⟩
  | _ => exact absurd rfl hne

theorem Effect.screen_writers (hne : t.fb ≠ s.fb) : (∃ ign, i = .cls ign) ∨ ∃ x y n, i = .drw x y n := by
  cases h with
  | clears ign hi => exact .inl ⟨ign, hi⟩
  | drawn x y n _ _ hi => exact .inr ⟨x, y, n, hi⟩
  | drawFaults x y n _ _ hi => exact .inr ⟨x, y, n, hi⟩
  | _ => exact absurd rfl hne

theorem Effect.drawPending_writers (hne : t.drawPending ≠ s.drawPending) : ∃ x y n, i = .drw x y n := by
  cases h with
  | drawn x y n _ _ hi => exact ⟨x, y, n, hi⟩
  | _ => exact absurd rfl hne

theorem Effect.rndIndex_writers (hne : t.rndIndex ≠ s.rndIndex) : ∃ x nn, i = .rnd x nn := by
  cases h with
  | draws x nn _ hi => exact ⟨x, nn, hi⟩
  | _ => exact absurd rfl hne

end Writers

/-! ### VF (R12) -/

theorem flagByte_eq_zero_or_one (f : Bool) : flagByte f = 0 ∨ flagByte f = 1 := by
  cases f
  · exact .inl rfl
  · exact .inr rfl

/-- A plain write changes VF only when it names V15. -/
theorem State.eq_vf_of_readV_writeV_ne {s : State} {x : Reg} {b : Byte}
    (hne : (s.writeV x b).readV 15 ≠ s.readV 15) : x = 15 := by
  by_contra hx
  exact hne (s.readV_writeV_other hx b)

/-- A logical result changes VF by its clearing of VF under `resetVF`, or when it names V15. -/
theorem State.readV_writeLogic_vf_ne {s : State} {x : Reg} {b : Byte}
    (hne : (s.writeLogic x b).readV 15 ≠ s.readV 15) :
    (s.q.resetVF = true ∧ (s.writeLogic x b).readV 15 = 0) ∨ x = 15 := by
  cases hq : s.q.resetVF with
  | true => exact .inl ⟨rfl, s.readV_writeLogic_vf x b hq⟩
  | false =>
    rw [s.readV_writeLogic x 15 b (.inl hq)] at hne
    exact .inr (by_contra fun hx => hne (if_neg hx))

/-! ### The obligations -/

/-- Settles O22: every other effect leaves the empty latch. -/
theorem faultsComeOnlyFromTheirRaisers : Obligations.FaultsComeOnlyFromTheirRaisers := by
  intro i s t f hclear hexec hf
  rcases (effect_of_exec hexec).latch with h | ⟨h, hraiser⟩ | ⟨h, hraiser⟩ | ⟨a, h, hraiser⟩
  · rw [hf, hclear] at h
    exact nomatch h
  · exact .inl ⟨Option.some.inj (hf.symm.trans h), hraiser⟩
  · exact .inr (.inl ⟨Option.some.inj (hf.symm.trans h), hraiser⟩)
  · exact .inr (.inr ⟨a, Option.some.inj (hf.symm.trans h), hraiser⟩)

/-- Settles O23: the only effects on memory are those of the two stores. -/
theorem onlyStoresWriteMemory : Obligations.OnlyStoresWriteMemory := by
  intro i s t hexec hldB hstoreRegs a
  have heffect := effect_of_exec hexec
  obtain ⟨-, -, -, -, -, -, -, hcfg⟩ := heffect.hostState
  rcases heffect.mem with hmem | ⟨x, hi⟩ | ⟨x, hi⟩
  · rw [State.byteAt, hmem, hcfg, State.byteAt]
  · exact absurd hi (hldB x)
  · exact absurd hi (hstoreRegs x)

/-- Settles O24: no effect writes any of these fields. -/
theorem instructionsLeaveHostState : Obligations.InstructionsLeaveHostState := by
  intro i s t hexec
  exact (effect_of_exec hexec).hostState

/-- Settles O25: the writers of each register, by the effects that change it. -/
theorem specialStateHasOnlyItsWriters : Obligations.SpecialStateHasOnlyItsWriters := by
  intro i s t hexec
  have h := effect_of_exec hexec
  exact ⟨h.index_writers, h.dt_writers, h.st_writers, h.stack_writers, h.screen_writers, h.drawPending_writers,
    h.rndIndex_writers⟩

/-- Settles O26: the effects on the register file are a plain write, a logical result, a result with its flag, a drawn
sprite's flag, and a load of V0..VX. -/
theorem flagHasOnlyItsWriters : Obligations.FlagHasOnlyItsWriters := by
  intro i s t hexec hne
  cases effect_of_exec hexec with
  | writesReg x b hi =>
    obtain rfl := State.eq_vf_of_readV_writeV_ne hne
    rcases hi with ⟨nn, hi⟩ | ⟨y, hi⟩ | hi | hi
    · exact .inr (.inr (.inl ⟨nn, hi.imp_right .inl⟩))
    · exact .inr (.inr (.inr (.inl ⟨y, .inl hi⟩)))
    · exact .inr (.inr (.inr (.inr (.inl hi))))
    · exact .inr (.inr (.inr (.inr (.inr (.inl hi)))))
  | draws x nn b hi =>
    obtain rfl : x = 15 := State.eq_vf_of_readV_writeV_ne (s := { s with rndIndex := s.rndIndex + 1 }) hne
    exact .inr (.inr (.inl ⟨nn, .inr (.inr hi)⟩))
  | logic x y b hi =>
    rcases State.readV_writeLogic_vf_ne hne with ⟨hq, hzero⟩ | rfl
    · exact .inl ⟨hq, hzero, x, y, hi⟩
    · exact .inr (.inr (.inr (.inl ⟨y, .inr hi⟩)))
  | arith x y b flag hi =>
    rw [State.readV_writeWithFlag_vf]
    refine .inr (.inl ⟨flagByte_eq_zero_or_one flag, x, y, ?_⟩)
    rcases hi with hi | hi | hi | hi | hi <;> simp [hi]
  | drawn x y n fb flag hi =>
    rw [State.readV_writeV_same]
    exact .inr (.inl ⟨flagByte_eq_zero_or_one flag, x, y, .inr (.inr (.inr (.inr (.inr ⟨n, hi⟩))))⟩)
  | loaded x v a latch hi hv =>
    obtain rfl : x = 15 := by_contra fun hx => hne (hv 15 (lt_of_le_of_ne (Fin.le_last x) hx))
    exact .inr (.inr (.inr (.inr (.inr (.inr hi)))))
  | _ => exact absurd rfl hne

end Sys2Proof.Machine

/-!
The cycle (spec/40_cycle.md R85): an equation for each way a cycle can go, then what a cycle can do, said once.
-/

namespace Sys2Proof.Machine

/-! ### The four ways of a cycle -/

theorem step_of_fault {s : State} {f : Fault} (hfault : s.fault = some f) : step s = .next s := by
  simp only [step, hfault]

theorem step_of_fetch_error {s : State} {f : Fault} (hfault : s.fault = none) (hfetch : fetch s = .error f) :
    step s = .next (s.raise f) := by
  simp only [step, hfault, hfetch, raiseFault]

theorem step_of_exec {s t u : State} {op : Word} {i : Instr} (hfault : s.fault = none) (hfetch : fetch s = .ok (op, t))
    (hdecode : decodeWord op = .ok i) (hexec : exec i t = .next u) : step s = .next u.countCycle := by
  simp only [step, hfault, hfetch, hdecode, hexec]

/-! ### What a cycle can do -/

/-- What a cycle can make of `s`: nothing on a halted core, a fault of its fetch or of its decode phase, or the effect
of the instruction on the state whose PC is past it, counted. -/
inductive StepEffect (s : State) : State → Prop
  | halted (f : Fault) (hfault : s.fault = some f) : StepEffect s s
  | fetchFaults (f : Fault) (hfault : s.fault = none) (hfetch : fetch s = .error f) : StepEffect s (s.raise f)
  | badOpcode (op : Word) (e : DecodeError) (hfault : s.fault = none)
      (hfetch : fetch s = .ok (op, s.setPC (s.pc + 2))) (hdecode : decodeWord op = .error e) :
      StepEffect s ((s.setPC (s.pc + 2)).raise (.badOpcode op))
  | executes (op : Word) (i : Instr) (u : State) (hfault : s.fault = none)
      (hfetch : fetch s = .ok (op, s.setPC (s.pc + 2))) (hdecode : decodeWord op = .ok i)
      (heffect : Effect i (s.setPC (s.pc + 2)) u) : StepEffect s u.countCycle

/-- Every cycle answers a next state, and `StepEffect` says which. -/
theorem step_effect (s : State) : ∃ t, step s = .next t ∧ StepEffect s t := by
  cases hfault : s.fault with
  | some f => exact ⟨s, step_of_fault hfault, .halted f hfault⟩
  | none =>
    rcases fetch_cases s with ⟨op, hfetch⟩ | ⟨a, hfetch, -⟩
    · cases hdecode : decodeWord op with
      | error e =>
        exact ⟨_, step_of_decodeWord_error hfault hfetch hdecode, .badOpcode op e hfault hfetch hdecode⟩
      | ok i =>
        obtain ⟨u, hexec, heffect⟩ := exec_effect i (s.setPC (s.pc + 2))
        exact ⟨_, step_of_exec hfault hfetch hdecode hexec, .executes op i u hfault hfetch hdecode heffect⟩
    · exact ⟨_, step_of_fetch_error hfault hfetch, .fetchFaults _ hfault hfetch⟩

theorem stepEffect_of_step {s t : State} (h : step s = .next t) : StepEffect s t := by
  obtain ⟨u, hu, heffect⟩ := step_effect s
  obtain rfl : t = u := Host.Outcome.next.inj (h.symm.trans hu)
  exact heffect

/-- No cycle writes the keys, the quirks or the configuration. -/
theorem StepEffect.hostState {s t : State} (h : StepEffect s t) :
    t.keyNow = s.keyNow ∧ t.keyPrev = s.keyPrev ∧ t.q = s.q ∧ t.cfg = s.cfg := by
  cases h with
  | executes _ _ u _ _ _ heffect =>
    obtain ⟨hnow, hprev, hq, -, -, -, -, hcfg⟩ := heffect.hostState
    rw [State.countCycle_eq]
    exact ⟨hnow, hprev, hq, hcfg⟩
  | _ => exact ⟨rfl, rfl, rfl, rfl⟩

/-! ### The obligations -/

/-- Settles O19: by the two lemmas that say what a cycle and an execute phase can do. -/
theorem everyCycleAnswersNextState : Obligations.EveryCycleAnswersNextState := by
  refine ⟨fun s => ?step, fun i s => ?exec⟩
  case step =>
    obtain ⟨t, hstep, -⟩ := step_effect s
    exact ⟨t, hstep⟩
  case exec =>
    obtain ⟨t, hexec, -⟩ := exec_effect i s
    exact ⟨t, hexec⟩

/-- Settles O20: a fault of the fetch or of the decode phase leaves the latch full and ICOUNT alone; no instruction
writes ICOUNT, so an executed cycle is counted by `countCycle` only. -/
theorem cycleCountsUnlessItFaults : Obligations.CycleCountsUnlessItFaults := by
  intro s t hclear hstep
  cases stepEffect_of_step hstep with
  | halted f hfault =>
    rw [hclear] at hfault
    exact nomatch hfault
  | fetchFaults f => exact (if_neg nofun).symm
  | badOpcode op => exact (if_neg nofun).symm
  | executes op i u _ _ _ heffect =>
    obtain ⟨-, -, -, -, hicount, -⟩ := heffect.hostState
    rw [State.countCycle_eq]
    simp only [hicount, State.setPC_icount]

/-- Settles O14: the equations of the four ways, with the latch and ICOUNT as record updates. -/
theorem stepIsFetchDecodeExecuteCount : Obligations.StepIsFetchDecodeExecuteCount := by
  intro s
  refine ⟨fun f => step_of_fault, fun hfault => ⟨fun f => step_of_fetch_error hfault, fun op t hfetch => ⟨?bad, ?good⟩⟩⟩
  case bad => exact fun e => step_of_decodeWord_error hfault hfetch
  case good =>
    intro i u hdecode hexec
    rw [step_of_exec hfault hfetch hdecode hexec, State.countCycle_eq]
    split <;> rfl

/-- Settles O15: the fetch reads the word of the two bytes, and the cycle is the instruction's effect, counted. -/
theorem stepRunsDecodedInstruction : Obligations.StepRunsDecodedInstruction := by
  intro s t i hfault hreach hdecode hexec
  rw [step_of_exec hfault (fetch_eq_ok hreach) hdecode hexec, State.countCycle_eq]

/-- A fetch whose high byte is out of bounds (R81). -/
theorem fetch_of_firstFault_zero {s : State} (h : FirstFault s s.pc 0) :
    fetch s = .error (.outOfBounds s.pc.toNat) := by
  obtain ⟨hq, hout, -⟩ := h
  have hhigh : memRead s s.pc.toNat = .error (.outOfBounds s.pc.toNat) := memRead_eq_error.mpr ⟨⟨hq, hout⟩, rfl⟩
  simp only [fetch, hhigh]

/-- A fetch whose low byte alone is out of bounds (R81): the address is not truncated. -/
theorem fetch_of_firstFault_one {s : State} (h : FirstFault s s.pc 1) :
    fetch s = .error (.outOfBounds (s.pc.toNat + 1)) := by
  obtain ⟨hq, hout, hin⟩ := h
  have hhigh : memRead s s.pc.toNat = .ok (s.byteAt s.pc.toNat) := memRead_eq_ok.mpr ⟨.inr (hin 0 Nat.one_pos), rfl⟩
  have hlow : memRead s (s.pc.toNat + 1) = .error (.outOfBounds (s.pc.toNat + 1)) :=
    memRead_eq_error.mpr ⟨⟨hq, hout⟩, rfl⟩
  simp only [fetch, hhigh, hlow]

/-- Settles O16: the three ways of a fetch; STEP takes its fault on the state as it was. -/
theorem fetchReadsBigEndian : Obligations.FetchReadsBigEndian := by
  intro s
  refine ⟨fun hreach => ?completes, fun hhigh => ?high, fun hlow => ?low⟩
  case completes =>
    rw [fetch_eq_ok hreach]
    have hpc : s.pc + 2 = BitVec.ofNat 16 ((s.pc.toNat + 2) % 65536) :=
      BitVec.eq_of_toNat_eq (by simp [BitVec.toNat_add])
    exact congrArg (fun a => Except.ok (_, s.setPC a)) hpc
  case high =>
    have hfetch := fetch_of_firstFault_zero hhigh
    exact ⟨hfetch, fun hfault => step_of_fetch_error hfault hfetch⟩
  case low =>
    have hfetch := fetch_of_firstFault_one hlow
    exact ⟨hfetch, fun hfault => step_of_fetch_error hfault hfetch⟩

end Sys2Proof.Machine

/-!
RESET and the invariant (spec/70_reset_and_hazards.md R180, spec/10_state.md R19, R24, R27): the reset state, and that a
cycle keeps `State.Inv`.
-/

namespace Sys2Proof.Machine

/-! ### The content of memory after reset (R180, R182) -/

theorem Memory.resetByte_font (cfg : Config) {j : Nat} (hj : j < 80) :
    Memory.resetByte cfg (cfg.fontBase + j) = cfg.font[j] := by
  simp [Memory.resetByte, Vector.getD, hj]

theorem Memory.resetByte_outside_font {cfg : Config} {a : Nat} (h : a < cfg.fontBase ∨ cfg.fontBase + 80 ≤ a) :
    Memory.resetByte cfg a = 0 := by
  rcases h with hlow | hhigh
  · rw [resetByte, if_neg (by omega)]
  · have hoffset : 80 ≤ a - cfg.fontBase := by omega
    simp [resetByte, Vector.getD, hoffset]

theorem State.byteAt_resetWith (cfg : Config) (quirks0 : Quirks) {a : Nat} (ha : a < 4096) :
    (State.resetWith cfg quirks0).byteAt a = Memory.resetByte cfg a := by
  rw [State.byteAt, Nat.mod_eq_of_lt ha]
  rfl

theorem Config.valid_iff {cfg : Config} : cfg.valid = true ↔ cfg.fontBase + 80 ≤ 4096 ∧ cfg.progBase < 4096 := by
  simp [Config.valid]

/-- The RESET operation leaves the reset state of the machine's configuration, but for the count of random draws (log
entry 3). -/
theorem eq_resetWith_of_reset {cfg : Config} {quirks0 : Quirks} {s t : State}
    (h : (s.cfg = cfg ∧ applyHostOp (.reset quirks0) s = .ok t) ∨ t = State.resetWith cfg quirks0) :
    ∃ count, t = { State.resetWith cfg quirks0 with rndIndex := count } := by
  rcases h with ⟨rfl, h⟩ | rfl
  · exact ⟨s.rndIndex, (Except.ok.inj h).symm⟩
  · exact ⟨0, rfl⟩

/-- Settles O1: every field of the reset state, then the font bytes and the zeros that unlisted cells read as. -/
theorem resetLeavesTheSpecsState : Obligations.ResetLeavesTheSpecsState := by
  intro cfg quirks0 s t hcfg h
  obtain ⟨count, rfl⟩ := eq_resetWith_of_reset h
  obtain ⟨hfont, hprog⟩ := Config.valid_iff.mp hcfg
  refine ⟨fun r => ?v, rfl, ?pc, rfl, rfl, rfl, Screen.pixel_clear, fun k => ?keys, rfl, rfl, rfl, rfl, rfl, rfl, rfl,
    rfl, fun j hj => ?font, fun a ha hout => ?zeros⟩
  case v => exact Vector.getElem_replicate ..
  case pc => exact (BitVec.toNat_ofNat _ 16).trans (Nat.mod_eq_of_lt (by omega))
  case keys => exact ⟨Vector.getElem_replicate .., Vector.getElem_replicate ..⟩
  case font => exact (State.byteAt_resetWith cfg quirks0 (by omega)).trans (Memory.resetByte_font cfg hj)
  case zeros => exact (State.byteAt_resetWith cfg quirks0 ha).trans (Memory.resetByte_outside_font hout)

/-- Settles O2: the reset state's fields are the defaults of R5, compared as literals. -/
theorem defaultConfigurationHasTheSpecsValues : Obligations.DefaultConfigurationHasTheSpecsValues :=
  ⟨rfl, rfl, rfl, rfl, rfl, rfl, rfl⟩

/-- Settles O4: the 80 reads, compared byte by byte with the table of R182. -/
theorem fontBytesAfterReset : Obligations.FontBytesAfterReset := by
  unfold Obligations.FontBytesAfterReset
  decide

/-! ### The invariant -/

/-- The invariant speaks of five fields only. -/
theorem State.Inv.congr {s t : State} (hs : s.Inv) (hcfg : t.cfg = s.cfg) (hmem : t.mem = s.mem)
    (hstack : t.stack = s.stack) (hfontEnd : t.fontEnd = s.fontEnd) (hprogEnd : t.progEnd = s.progEnd) : t.Inv where
  cfgValid := hcfg ▸ hs.cfgValid
  memWf := hcfg ▸ hmem ▸ hs.memWf
  stackBound := hstack ▸ hs.stackBound
  fontEnd := hcfg ▸ hfontEnd ▸ hs.fontEnd
  progEndLow := hcfg ▸ hprogEnd ▸ hs.progEndLow
  progEndHigh := hprogEnd ▸ hs.progEndHigh

/-- Settles O5: memory lists no cell and the stack no entry. -/
theorem resetMeetsInvariant : Obligations.ResetMeetsInvariant := by
  intro cfg quirks0 hcfg
  obtain ⟨-, hprog⟩ := Config.valid_iff.mp hcfg
  exact { cfgValid := hcfg, memWf := rfl, stackBound := Nat.zero_le 16, fontEnd := rfl, progEndLow := le_rfl,
          progEndHigh := hprog.le }

/-- An instruction keeps memory canonical: only the stores write it. -/
theorem Effect.memWf {i : Instr} {s t : State} (h : Effect i s t) (hwf : s.mem.wf s.cfg = true) :
    t.mem.wf t.cfg = true := by
  cases h with
  | stored _ _ _ _ hkeeps => exact hkeeps hwf
  | _ => exact hwf

/-- An instruction keeps the bound of the stack: CALL pushes only where there is room. -/
theorem Effect.stackBound {i : Instr} {s t : State} (h : Effect i s t) (hbound : s.stack.length ≤ 16) :
    t.stack.length ≤ 16 := by
  cases h with
  | calls _ _ hroom =>
    rw [State.setPC_stack, State.push_stack, List.length_append, List.length_singleton]
    exact hroom
  | returns =>
    rw [List.length_dropLast]
    exact (Nat.sub_le _ _).trans hbound
  | _ => exact hbound

theorem Effect.keepsInv {i : Instr} {s t : State} (h : Effect i s t) (hs : s.Inv) : t.Inv := by
  obtain ⟨-, -, -, -, -, hfontEnd, hprogEnd, hcfg⟩ := h.hostState
  exact {
    cfgValid := hcfg ▸ hs.cfgValid
    memWf := h.memWf hs.memWf
    stackBound := h.stackBound hs.stackBound
    fontEnd := hcfg ▸ hfontEnd ▸ hs.fontEnd
    progEndLow := hcfg ▸ hprogEnd ▸ hs.progEndLow
    progEndHigh := hprogEnd ▸ hs.progEndHigh }

/-- Settles O6: taking a fault, moving PC and counting touch no field of the invariant, and the instruction's effect
keeps it. -/
theorem stepKeepsInvariant : Obligations.StepKeepsInvariant := by
  intro s t hs hstep
  cases stepEffect_of_step hstep with
  | halted => exact hs
  | fetchFaults => exact hs.congr rfl rfl rfl rfl rfl
  | badOpcode => exact hs.congr rfl rfl rfl rfl rfl
  | executes _ _ u _ _ _ heffect =>
    have hu : u.Inv := heffect.keepsInv (hs.congr rfl rfl rfl rfl rfl)
    rw [State.countCycle_eq]
    exact hu.congr rfl rfl rfl rfl rfl

end Sys2Proof.Machine

/-!
RUN and executions (spec/40_cycle.md R86, spec/60_exceptions.md R161, R162): an equation for each way a cycle of a batch
can go, the induction over a batch and the one over an execution, each packaged once, and the host's other operations.
-/

namespace Sys2Proof.Machine

/-! ### RUN, cycle by cycle (R86) -/

theorem hostRun_of_fault {s : State} {f : Fault} (hfault : s.fault = some f) (n : Nat) : hostRun n s = .next s := by
  cases n with
  | zero => rfl
  | succ n => simp only [hostRun, hfault]

theorem State.clearDrawPending_of_clear {t : State} (hdraw : t.drawPending = false) :
    { t with drawPending := false } = t := by
  rw [← hdraw]

section Cycle

variable {s t : State} (hclear : s.fault = none) (hstep : step s = .next t) (n : Nat)
include hclear hstep

theorem hostRun_succ_of_fault {f : Fault} (hfault : t.fault = some f) : hostRun (n + 1) s = .next t := by
  simp only [hostRun, hclear, hstep, hfault]

theorem hostRun_succ_of_displayWait (hfault : t.fault = none) (hdraw : t.drawPending = true)
    (hwait : t.q.displayWait = true) : hostRun (n + 1) s = .next { t with drawPending := false } := by
  simp only [hostRun, hclear, hstep, hfault, hdraw, hwait, if_true]

/-- A batch that goes on does so with the flag clear: it was clear, or it is cleared. -/
theorem hostRun_succ_of_goesOn (hfault : t.fault = none) (h : t.drawPending = false ∨ t.q.displayWait = false) :
    hostRun (n + 1) s = hostRun n { t with drawPending := false } := by
  cases hdraw : t.drawPending with
  | false =>
    rw [State.clearDrawPending_of_clear hdraw]
    simp only [hostRun, hclear, hstep, hfault, hdraw, Bool.false_eq_true, if_false]
  | true =>
    have hwait : t.q.displayWait = false := h.resolve_left (by simp [hdraw])
    simp only [hostRun, hclear, hstep, hfault, hdraw, hwait, Bool.false_eq_true, if_false, if_true]

end Cycle

/-- What the first cycle of a batch can do, and what is left of the batch. -/
inductive RunCycle (s : State) : Prop
  | halted (f : Fault) (hfault : s.fault = some f)
  | faults (t : State) (f : Fault) (hclear : s.fault = none) (hstep : step s = .next t) (hfault : t.fault = some f)
      (hrun : ∀ n, hostRun (n + 1) s = .next t)
  | waits (t : State) (hclear : s.fault = none) (hstep : step s = .next t) (hfault : t.fault = none)
      (hwait : t.q.displayWait = true) (hrun : ∀ n, hostRun (n + 1) s = .next { t with drawPending := false })
  | goesOn (t : State) (hclear : s.fault = none) (hstep : step s = .next t) (hfault : t.fault = none)
      (hrun : ∀ n, hostRun (n + 1) s = hostRun n { t with drawPending := false })

theorem runCycle (s : State) : RunCycle s := by
  cases hclear : s.fault with
  | some f => exact .halted f hclear
  | none =>
    obtain ⟨t, hstep, -⟩ := step_effect s
    cases hfault : t.fault with
    | some f => exact .faults t f hclear hstep hfault fun n => hostRun_succ_of_fault hclear hstep n hfault
    | none =>
      by_cases h : t.drawPending = false ∨ t.q.displayWait = false
      · exact .goesOn t hclear hstep hfault fun n => hostRun_succ_of_goesOn hclear hstep n hfault h
      · simp only [not_or, Bool.not_eq_false] at h
        obtain ⟨hdraw, hwait⟩ := h
        exact .waits t hclear hstep hfault hwait fun n => hostRun_succ_of_displayWait hclear hstep n hfault hdraw hwait

/-- A batch answers a next state, and keeps what every cycle and the clearing of the draw flag keep. -/
theorem hostRun_keeps {P : State → Prop} (hcycle : ∀ s t, P s → step s = .next t → P t)
    (hflag : ∀ s, P s → P { s with drawPending := false }) (n : Nat) {s : State} (hs : P s) :
    ∃ t, hostRun n s = .next t ∧ P t := by
  induction n generalizing s with
  | zero => exact ⟨s, rfl, hs⟩
  | succ n ih =>
    cases runCycle s with
    | halted f hfault => exact ⟨s, hostRun_of_fault hfault (n + 1), hs⟩
    | faults t f _ hstep _ hrun => exact ⟨t, hrun n, hcycle s t hs hstep⟩
    | waits t _ hstep _ _ hrun => exact ⟨_, hrun n, hflag t (hcycle s t hs hstep)⟩
    | goesOn t _ hstep _ hrun =>
      rw [hrun n]
      exact ih (hflag t (hcycle s t hs hstep))

/-! ### The obligations about RUN -/

/-- Settles O58: the four equations; where no draw is pending, clearing the flag changes nothing. -/
theorem runIsCyclesUntilFaultOrDraw : Obligations.RunIsCyclesUntilFaultOrDraw := by
  intro s t n
  refine ⟨rfl, fun f hfault => hostRun_of_fault hfault n,
    fun hclear hstep => ⟨fun f => ?faults, ?noDraw, ?waits, ?drawn⟩⟩
  case faults => exact hostRun_succ_of_fault hclear hstep n
  case noDraw =>
    intro hfault hdraw
    rw [hostRun_succ_of_goesOn hclear hstep n hfault (.inl hdraw), State.clearDrawPending_of_clear hdraw]
  case waits => exact hostRun_succ_of_displayWait hclear hstep n
  case drawn => exact fun hfault _ hwait => hostRun_succ_of_goesOn hclear hstep n hfault (.inr hwait)

/-- A batch from a clear latch leaves the draw flag clear unless it faults, if it does a cycle or found the flag
clear. -/
theorem hostRun_clears_drawPending (n : Nat) {s : State} (hclear : s.fault = none)
    (h : 0 < n ∨ s.drawPending = false) :
    ∃ t, hostRun n s = .next t ∧ (t.fault = none → t.drawPending = false) := by
  induction n generalizing s with
  | zero => exact ⟨s, rfl, fun _ => h.resolve_left (lt_irrefl 0)⟩
  | succ n ih =>
    cases runCycle s with
    | halted f hfault => exact absurd (hclear.symm.trans hfault) nofun
    | faults t f _ _ hfault hrun => exact ⟨t, hrun n, fun hnone => absurd (hnone.symm.trans hfault) nofun⟩
    | waits t _ _ _ _ hrun => exact ⟨_, hrun n, fun _ => rfl⟩
    | goesOn t _ _ hfault hrun =>
      rw [hrun n]
      exact ih hfault (.inr rfl)

/-- Settles O59: a batch from a full latch is over at once; any other is one of `hostRun_clears_drawPending`. -/
theorem runConsumesDrawFlag : Obligations.RunConsumesDrawFlag := by
  intro n s
  cases hfault : s.fault with
  | some f => exact ⟨s, hostRun_of_fault hfault n, fun _ hclear => nomatch hclear⟩
  | none =>
    rcases Nat.eq_zero_or_pos n with rfl | hpos
    · exact ⟨s, rfl, fun hpos => absurd hpos (lt_irrefl 0)⟩
    · obtain ⟨t, hrun, ht⟩ := hostRun_clears_drawPending n hfault (.inl hpos)
      exact ⟨t, hrun, fun _ _ => ht⟩

/-- Settles O60: by induction on the first batch; no cycle writes the quirk, so the batch ends early at a fault only,
and then so does the second. -/
theorem runSplitsWithoutDisplayWait : Obligations.RunSplitsWithoutDisplayWait := by
  intro m n s t hwait hrun
  induction m generalizing s with
  | zero =>
    obtain rfl : s = t := Host.Outcome.next.inj hrun
    rw [Nat.zero_add]
  | succ m ih =>
    rw [Nat.add_right_comm]
    cases runCycle s with
    | halted f hfault =>
      obtain rfl : s = t := Host.Outcome.next.inj ((hostRun_of_fault hfault (m + 1)).symm.trans hrun)
      rw [hostRun_of_fault hfault, hostRun_of_fault hfault]
    | faults u f _ _ hfault hall =>
      obtain rfl : u = t := Host.Outcome.next.inj ((hall m).symm.trans hrun)
      rw [hall, hostRun_of_fault hfault]
    | waits u _ hstep _ hon =>
      obtain ⟨-, -, hq, -⟩ := (stepEffect_of_step hstep).hostState
      rw [hq, hwait] at hon
      exact nomatch hon
    | goesOn u _ hstep _ hall =>
      obtain ⟨-, -, hq, -⟩ := (stepEffect_of_step hstep).hostState
      rw [hall]
      exact ih { u with drawPending := false } (hq ▸ hwait) ((hall m).symm.trans hrun)

end Sys2Proof.Machine

/-!
Executions (spec/60_exceptions.md R161 to R169, spec/70_reset_and_hazards.md R184, R185): what each host operation
writes, and what every sequence of them keeps.
-/

namespace Sys2Proof.Machine

/-! ### LOAD (R184, R185) -/

theorem hostLoad_of_fits {bytes : List Byte} {s : State} (hfits : bytes.length ≤ 4096 - s.cfg.progBase) :
    hostLoad bytes s = .ok { s with
      mem := s.mem.writeBytes s.cfg s.cfg.progBase bytes
      progEnd := s.cfg.progBase + bytes.length
      romLoaded := true } := if_pos hfits

theorem hostLoad_of_tooLong {bytes : List Byte} {s : State} (hlong : 4096 - s.cfg.progBase < bytes.length) :
    hostLoad bytes s = .error (.romTooLong bytes.length) := if_neg (Nat.not_le.mpr hlong)

/-- A LOAD that answers a state had room, and wrote memory and metadata only. -/
theorem hostLoad_eq_ok {bytes : List Byte} {s t : State} (h : hostLoad bytes s = .ok t) :
    bytes.length ≤ 4096 - s.cfg.progBase ∧
      t = { s with
        mem := s.mem.writeBytes s.cfg s.cfg.progBase bytes
        progEnd := s.cfg.progBase + bytes.length
        romLoaded := true } := by
  by_cases hfits : bytes.length ≤ 4096 - s.cfg.progBase
  · exact ⟨hfits, (Except.ok.inj ((hostLoad_of_fits hfits).symm.trans h)).symm⟩
  · rw [hostLoad_of_tooLong (Nat.not_le.mp hfits)] at h
    exact nomatch h

/-! ### What an execution keeps -/

/-- An operation that is a cycle or a batch keeps what every cycle and the clearing of the draw flag keep. -/
theorem applyHostOp_cycles_keeps {P : State → Prop} (hcycle : ∀ s t, P s → step s = .next t → P t)
    (hflag : ∀ s, P s → P { s with drawPending := false }) {op : HostOp} (hop : op = .step ∨ ∃ n, op = .run n)
    {s t : State} (hs : P s) (h : applyHostOp op s = .ok t) : P t := by
  rcases hop with rfl | ⟨n, rfl⟩
  · obtain ⟨u, hstep, -⟩ := step_effect s
    simp only [applyHostOp, hstep, ofResult, Except.ok.injEq] at h
    exact h ▸ hcycle s u hs hstep
  · obtain ⟨u, hrun, hu⟩ := hostRun_keeps hcycle hflag n hs
    simp only [applyHostOp, hrun, ofResult, Except.ok.injEq] at h
    exact h ▸ hu

/-- An execution keeps what each of its operations keeps; an operation that reports an error changes nothing (R185). -/
theorem runOps_keeps {P : State → Prop} {ops : List HostOp}
    (hops : ∀ op, op ∈ ops → ∀ s t, P s → applyHostOp op s = .ok t → P t) {s : State} (hs : P s) :
    P (runOps ops s) := by
  induction ops generalizing s with
  | nil => exact hs
  | cons op ops ih =>
    have hrest := fun op' h => hops op' (List.mem_cons_of_mem op h)
    unfold runOps
    cases happly : applyHostOp op s with
    | ok t => exact ih hrest (hops op List.mem_cons_self s t hs happly)
    | error e => exact ih hrest hs

/-- Settles O3: no operation writes the configuration. -/
theorem configurationNeverChanges : Obligations.ConfigurationNeverChanges := by
  intro ops s
  refine runOps_keeps (P := fun t => t.cfg = s.cfg) (fun op _ u t hu happly => ?_) rfl
  have hcycle : ∀ u t : State, u.cfg = s.cfg → step u = .next t → t.cfg = s.cfg := fun u t hu hstep => by
    obtain ⟨-, -, -, hcfg⟩ := (stepEffect_of_step hstep).hostState
    exact hcfg.trans hu
  cases op with
  | step => exact applyHostOp_cycles_keeps hcycle (fun _ h => h) (.inl rfl) hu happly
  | run n => exact applyHostOp_cycles_keeps hcycle (fun _ h => h) (.inr ⟨n, rfl⟩) hu happly
  | load bytes =>
    obtain ⟨-, rfl⟩ := hostLoad_eq_ok happly
    exact hu
  | _ => exact Except.ok.inj happly ▸ hu

/-- LOAD keeps memory canonical and PROG_END within memory, since it refuses what does not fit. -/
theorem hostLoad_keepsInv {bytes : List Byte} {s t : State} (hs : s.Inv) (h : hostLoad bytes s = .ok t) : t.Inv := by
  obtain ⟨hfits, rfl⟩ := hostLoad_eq_ok h
  have hend : s.cfg.progBase + bytes.length ≤ 4096 := by
    have := hs.progEndLow.trans hs.progEndHigh
    omega
  exact { hs with
    memWf := Memory.wf_writeBytes hs.memWf s.cfg.progBase bytes hend
    progEndLow := Nat.le_add_right _ _
    progEndHigh := hend }

/-- Settles O7: RESET establishes the invariant, LOAD and the cycles keep it, and the rest write none of its fields. -/
theorem everyExecutionKeepsInvariant : Obligations.EveryExecutionKeepsInvariant := by
  intro ops s hs
  refine runOps_keeps (P := State.Inv) (fun op _ u t hu happly => ?_) hs
  have hflag (u : State) (hu : u.Inv) : State.Inv { u with drawPending := false } := hu.congr rfl rfl rfl rfl rfl
  cases op with
  | step => exact applyHostOp_cycles_keeps stepKeepsInvariant hflag (.inl rfl) hu happly
  | run n => exact applyHostOp_cycles_keeps stepKeepsInvariant hflag (.inr ⟨n, rfl⟩) hu happly
  | load bytes => exact hostLoad_keepsInv hu happly
  | reset quirks0 =>
    obtain rfl := Except.ok.inj happly
    exact (resetMeetsInvariant u.cfg quirks0 hu.cfgValid).congr rfl rfl rfl rfl rfl
  | _ =>
    obtain rfl := Except.ok.inj happly
    exact hu.congr rfl rfl rfl rfl rfl

/-- Settles O57: `Memory.writeBytes` gives each byte its cell; the addresses below 4096 are their own cells. -/
theorem loadCopiesProgram : Obligations.LoadCopiesProgram := by
  intro bytes s hcfg hwf
  obtain ⟨-, hprog⟩ := Config.valid_iff.mp hcfg
  refine ⟨fun hfits => ⟨_, hostLoad_of_fits hfits, rfl, fun j hj => ?copied, fun a ha hout => ?kept⟩,
    fun hlong => ⟨hostLoad_of_tooLong hlong, ?refused⟩⟩
  case copied =>
    rw [State.byteAt, Nat.mod_eq_of_lt (by omega), Memory.read_writeBytes hwf _ _ (by omega), if_pos (by omega),
      Nat.add_sub_cancel_left, List.getD_eq_getElem]
  case kept =>
    rw [State.byteAt, Nat.mod_eq_of_lt ha, Memory.read_writeBytes hwf _ _ (by omega), if_neg (by omega), State.byteAt,
      Nat.mod_eq_of_lt ha]
  case refused => simp only [runOps, applyHostOp, hostLoad_of_tooLong hlong]

/-! ### A halted core -/

/-- LOAD neither reads nor writes the latch. -/
theorem hostLoad_of_clear_latch {bytes : List Byte} {s t : State} {f : Fault} (hfault : s.fault = some f)
    (h : hostLoad bytes { s with fault := none } = .ok t) : hostLoad bytes s = .ok { t with fault := some f } := by
  obtain ⟨hfits, rfl⟩ := hostLoad_eq_ok h
  rw [hostLoad_of_fits (s := s) hfits, ← hfault]

/-- Settles O21: a halted cycle and batch are over at once, RESET clears the latch, and the other operations neither
read nor write it. -/
theorem haltedCoreOnlyResets : Obligations.HaltedCoreOnlyResets := by
  intro s f hfault
  refine ⟨step_of_fault hfault, hostRun_of_fault hfault, fun quirks0 => ⟨_, rfl, rfl⟩, fun op hop t happly => ?others⟩
  case others =>
    cases op with
    | reset | step | run => simp at hop
    | load bytes => exact hostLoad_of_clear_latch hfault happly
    | tick | keyDown | keyUp | keySnapshot | quirkWrite | observe =>
      rw [← Except.ok.inj happly, ← hfault]
      rfl

/-! ### Timers, keys and quirks (R163 to R167) -/

theorem countDown_toNat (b : Byte) : (countDown b).toNat = b.toNat - 1 := by
  unfold countDown
  split <;> bv_omega

theorem getElem_set_key (keys : Keys) (k j : KeyId) (b : Bool) :
    (keys.set k b)[j] = if k = j then b else keys[j] := by
  simp only [Fin.getElem_fin, Vector.getElem_set, Fin.ext_iff]

theorem keyNow_hostKeyDown (k j : KeyId) (s : State) :
    (hostKeyDown k s).keyNow[j] = if k = j then true else s.keyNow[j] :=
  getElem_set_key s.keyNow k j true

theorem keyNow_hostKeyUp (k j : KeyId) (s : State) :
    (hostKeyUp k s).keyNow[j] = if k = j then false else s.keyNow[j] :=
  getElem_set_key s.keyNow k j false

theorem quirkGet_quirkSet_same (q : Quirks) (name : QuirkName) (b : Bool) : quirkGet (quirkSet q name b) name = b := by
  cases name <;> rfl

theorem quirkGet_quirkSet_other (q : Quirks) {name other : QuirkName} (h : other ≠ name) (b : Bool) :
    quirkGet (quirkSet q name b) other = quirkGet q other := by
  revert h
  cases name <;> cases other <;> simp [quirkGet, quirkSet]

/-- Settles O55: each operation is an update of its own field. -/
theorem hostInputsWriteOnlyTheirState : Obligations.HostInputsWriteOnlyTheirState := by
  intro s
  refine ⟨?tick, fun k => ?keyDown, fun k => ?keyUp, ⟨hostKeySnapshot s, rfl, rfl⟩, fun name b => ?quirkWrite⟩
  case tick => exact ⟨hostTick s, rfl, rfl, countDown_toNat s.dt, countDown_toNat s.st⟩
  case keyDown =>
    refine ⟨hostKeyDown k s, rfl, rfl, ?_, fun j hj => ?_⟩
    · rw [keyNow_hostKeyDown, if_pos rfl]
    · rw [keyNow_hostKeyDown, if_neg hj.symm]
  case keyUp =>
    refine ⟨hostKeyUp k s, rfl, rfl, ?_, fun j hj => ?_⟩
    · rw [keyNow_hostKeyUp, if_pos rfl]
    · rw [keyNow_hostKeyUp, if_neg hj.symm]
  case quirkWrite =>
    exact ⟨hostQuirkWrite name b s, rfl, rfl, quirkGet_quirkSet_same s.q name b,
      fun other h => quirkGet_quirkSet_other s.q h b⟩

/-! ### Release edges (R146, R166) -/

/-- The edge detector reads the two key arrays only. -/
theorem State.releasedKey_congr {s t : State} (hnow : t.keyNow = s.keyNow) (hprev : t.keyPrev = s.keyPrev) :
    t.releasedKey = s.releasedKey := by
  unfold releasedKey
  rw [hnow, hprev]

theorem releasedKey_hostKeySnapshot (s : State) : (hostKeySnapshot s).releasedKey = none :=
  State.releasedKey_eq_none.mpr fun k ⟨hprev, hnow⟩ => absurd (hprev.symm.trans hnow) (by decide)

theorem releasedKey_hostReset (quirks0 : Quirks) (s : State) : (hostReset quirks0 s).releasedKey = none :=
  State.releasedKey_eq_none.mpr fun k ⟨hprev, _⟩ =>
    absurd ((Vector.getElem_replicate k.isLt).symm.trans hprev) Bool.false_ne_true

/-- A key that goes down makes no edge. -/
theorem releasedKey_hostKeyDown {s : State} (k : KeyId) (hs : s.releasedKey = none) :
    (hostKeyDown k s).releasedKey = none := by
  refine State.releasedKey_eq_none.mpr fun j ⟨hprev, hnow⟩ => ?_
  rw [keyNow_hostKeyDown] at hnow
  split at hnow
  · exact nomatch hnow
  · exact State.releasedKey_eq_none.mp hs j ⟨hprev, hnow⟩

/-- Every operation but KEY_UP keeps the absence of edges. -/
theorem applyHostOp_keeps_releasedKey_none {op : HostOp} (hop : ∀ j, op ≠ .keyUp j) {s t : State}
    (hs : s.releasedKey = none) (happly : applyHostOp op s = .ok t) : t.releasedKey = none := by
  have hcycle : ∀ s t : State, s.releasedKey = none → step s = .next t → t.releasedKey = none := fun s t hs hstep => by
    obtain ⟨hnow, hprev, -⟩ := (stepEffect_of_step hstep).hostState
    exact (State.releasedKey_congr hnow hprev).trans hs
  cases op with
  | step => exact applyHostOp_cycles_keeps hcycle (fun _ h => h) (.inl rfl) hs happly
  | run n => exact applyHostOp_cycles_keeps hcycle (fun _ h => h) (.inr ⟨n, rfl⟩) hs happly
  | load bytes =>
    obtain ⟨-, rfl⟩ := hostLoad_eq_ok happly
    exact hs
  | reset quirks0 => exact Except.ok.inj happly ▸ releasedKey_hostReset quirks0 s
  | keyDown k => exact Except.ok.inj happly ▸ releasedKey_hostKeyDown k hs
  | keyUp k => exact absurd rfl (hop k)
  | keySnapshot => exact Except.ok.inj happly ▸ releasedKey_hostKeySnapshot s
  | tick | quirkWrite | observe => exact Except.ok.inj happly ▸ hs

/-- The key held at a snapshot and then released is the one edge. -/
theorem releasedKey_of_release (k : KeyId) (s : State) :
    (hostKeyUp k (hostKeySnapshot (hostKeyDown k s))).releasedKey = some k := by
  refine State.releasedKey_eq_some ?down ?up fun j hj ⟨hprev, hnow⟩ => ?lower
  case down => exact (keyNow_hostKeyDown k k s).trans (if_pos rfl)
  case up => exact (keyNow_hostKeyUp k k _).trans (if_pos rfl)
  case lower =>
    rw [keyNow_hostKeyUp, if_neg hj.ne'] at hnow
    exact absurd (hprev.symm.trans hnow) (by decide)

/-- Settles O56: the snapshot leaves no edge, and the operations that follow keep that. -/
theorem snapshotClearsReleaseEdges : Obligations.SnapshotClearsReleaseEdges := by
  intro s ops k
  refine ⟨fun hops => ?_, releasedKey_of_release k s⟩
  exact runOps_keeps (P := fun t => t.releasedKey = none)
    (fun op hop _ _ => applyHostOp_keeps_releasedKey_none fun j h => hops j (h ▸ hop)) (releasedKey_hostKeySnapshot s)

end Sys2Proof.Machine

/-!
The decoder and the encoder (spec/30_encoding.md R62 to R70): each inverts the other, a row's mask selects what the
decoder selects, and the words that the decoder rejects.
-/

namespace Sys2Proof

/-! ### From an instruction to its word and back -/

/-- The fields of a packed word are what was packed, and they select the instruction's own branch of the decoder. -/
theorem decodeWord_encode (i : Instr) : decodeWord (encode i) = .ok i := by
  cases i
  case jp | call | ldI | jpV0 => simp [encode, decodeWord, fields_packNNN]
  case seReg | ldReg | orReg | andReg | xorReg | addReg | subReg | shrReg | subnReg | shlReg | sneReg | drw =>
    simp [encode, decodeWord, fields_packXYN]
  all_goals simp [encode, decodeWord, fields_packXNN]

/-- Settles O8: the word by its fields; its two bytes, high byte first, are the word again. -/
theorem decodeEncodeRoundTrip : Obligations.DecodeEncodeRoundTrip := by
  intro i rest
  refine ⟨decodeWord_encode i, ?_⟩
  simp only [encodeBytes, List.cons_append, List.nil_append, decode, wordOfBytes_bytes, decodeWord_encode]

/-! ### From a word to its instruction and back -/

section Fields

variable {w : Word} {f : Nibble} (hf : (familyOf w).toNat = f.toNat)
include hf

theorem packNNN_fields : packNNN f (nnnOf w) = w := by
  rw [← BitVec.eq_of_toNat_eq hf]
  exact (pack_fields w).2.2

theorem packXNN_fields {nn : Byte} (hnn : (nnOf w).toNat = nn.toNat) : packXNN f (xOf w) nn = w := by
  rw [← BitVec.eq_of_toNat_eq hf, ← BitVec.eq_of_toNat_eq hnn]
  exact (pack_fields w).2.1

theorem packXYN_fields {n : Nibble} (hn : (nOf w).toNat = n.toNat) : packXYN f (xOf w) (yOf w) n = w := by
  rw [← BitVec.eq_of_toNat_eq hf, ← BitVec.eq_of_toNat_eq hn]
  exact (pack_fields w).1

end Fields

/-- Each branch of the decoder fixes the bits that the encoder of its instruction writes, and keeps the others as
operands. -/
theorem encode_of_decodeWord {w : Word} {i : Instr} (h : decodeWord w = .ok i) : encode i = w := by
  unfold decodeWord at h
  split at h
  case h_2 hf | h_3 hf | h_11 hf | h_12 hf =>
    obtain rfl := Except.ok.inj h
    exact packNNN_fields hf
  case h_4 hf | h_5 hf | h_7 hf | h_8 hf | h_13 hf =>
    obtain rfl := Except.ok.inj h
    exact packXNN_fields hf rfl
  case h_6 hf | h_10 hf | h_14 hf =>
    obtain rfl := Except.ok.inj h
    exact packXYN_fields hf rfl
  case h_9 hf =>
    split at h <;> cases h
    all_goals
      rename_i hn
      exact packXYN_fields hf hn
  case h_1 hf | h_15 hf | h_16 hf =>
    split at h <;> cases h
    all_goals
      rename_i hnn
      exact packXNN_fields hf hnn
  case h_17 => exact nomatch h

/-- Settles O9: branch by branch of the decoder, `encode_of_decodeWord`. -/
theorem encodeInvertsDecode : Obligations.EncodeInvertsDecode := by
  intro w i
  exact encode_of_decodeWord

/-! ### Rows of the opcode map (R64) -/

open Sys2Proof.Laws.RowBits in
/-- The word of an instruction meets the test of its row: the lemmas of `RowBits` together. -/
theorem encode_meets_row : ∀ i : Instr, encode i &&& (rowOf i).2 = (rowOf i).1
  | .cls ign => cls ign
  | .ret ign => ret ign
  | .jp nnn => jp nnn
  | .call nnn => call nnn
  | .seImm x nn => seImm x nn
  | .sneImm x nn => sneImm x nn
  | .seReg x y ign => seReg x y ign
  | .ldImm x nn => ldImm x nn
  | .addImm x nn => addImm x nn
  | .ldReg x y => ldReg x y
  | .orReg x y => orReg x y
  | .andReg x y => andReg x y
  | .xorReg x y => xorReg x y
  | .addReg x y => addReg x y
  | .subReg x y => subReg x y
  | .shrReg x y => shrReg x y
  | .subnReg x y => subnReg x y
  | .shlReg x y => shlReg x y
  | .sneReg x y ign => sneReg x y ign
  | .ldI nnn => ldI nnn
  | .jpV0 nnn => jpV0 nnn
  | .rnd x nn => rnd x nn
  | .drw x y n => drw x y n
  | .skp x => skp x
  | .sknp x => sknp x
  | .ldVxDT x => ldVxDT x
  | .ldVxK x => ldVxK x
  | .ldDT x => ldDT x
  | .ldST x => ldST x
  | .addI x => addI x
  | .ldF x => ldF x
  | .ldB x => ldB x
  | .storeRegs x => storeRegs x
  | .loadRegs x => loadRegs x

section Masks

variable {w m : Word}

/-- The row test of a family without a second level fixes the family. -/
theorem familyOf_of_mask (h : w &&& 0xF000 = m) : (familyOf w).toNat = m.toNat / 4096 := by
  have hm : m = packNNN (familyOf w) 0 :=
    h.symm.trans ((congrArg (· &&& 0xF000) (pack_fields w).2.2.symm).trans (packNNN_mask ..))
  rw [← (fields_toNat m).1, hm, (fields_packNNN _ _).1]

/-- The row test of families 0, E and F fixes the family and the low byte. -/
theorem familyOf_nnOf_of_mask (h : w &&& 0xF0FF = m) :
    (familyOf w).toNat = m.toNat / 4096 ∧ (nnOf w).toNat = m.toNat % 256 := by
  have hm : m = packXNN (familyOf w) 0 (nnOf w) :=
    h.symm.trans ((congrArg (· &&& 0xF0FF) (pack_fields w).2.1.symm).trans (packXNN_mask_low ..))
  obtain ⟨hfam, hnn, -⟩ := fields_toNat m
  obtain ⟨hf, -, hb⟩ := fields_packXNN (familyOf w) 0 (nnOf w)
  rw [← hfam, ← hnn, hm, hf, hb]
  exact ⟨rfl, rfl⟩

/-- The row test of family 8 fixes the family and the low nibble. -/
theorem familyOf_nOf_of_mask (h : w &&& 0xF00F = m) :
    (familyOf w).toNat = m.toNat / 4096 ∧ (nOf w).toNat = m.toNat % 16 := by
  have hm : m = packXYN (familyOf w) 0 0 (nOf w) :=
    h.symm.trans ((congrArg (· &&& 0xF00F) (pack_fields w).1.symm).trans (packXYN_mask_low ..))
  obtain ⟨hfam, -, hn⟩ := fields_toNat m
  obtain ⟨hf, -, -, hb⟩ := fields_packXYN (familyOf w) 0 0 (nOf w)
  rw [← hfam, ← hn, hm, hf, hb]
  exact ⟨rfl, rfl⟩

end Masks

/-- A word that meets the test of a row decodes to an instruction of that row. -/
theorem decodeWord_of_meets_row {w : Word} (i : Instr) (h : w &&& (rowOf i).2 = (rowOf i).1) :
    ∃ j, decodeWord w = .ok j ∧ rowOf j = rowOf i := by
  cases i
  case cls | ret | skp | sknp | ldVxDT | ldVxK | ldDT | ldST | addI | ldF | ldB | storeRegs | loadRegs =>
    obtain ⟨hf, hnn⟩ := familyOf_nnOf_of_mask h
    simp [decodeWord, hf, hnn, rowOf]
  case ldReg | orReg | andReg | xorReg | addReg | subReg | shrReg | subnReg | shlReg =>
    obtain ⟨hf, hn⟩ := familyOf_nOf_of_mask h
    simp [decodeWord, hf, hn, rowOf]
  all_goals
    have hf := familyOf_of_mask h
    simp [decodeWord, hf, rowOf]

/-- Settles O10: the word that decodes is the word of its instruction, which meets its row's test. -/
theorem decodeSelectsRowByMask : Obligations.DecodeSelectsRowByMask := by
  refine ⟨fun w i h => ?_, fun w i => decodeWord_of_meets_row i⟩
  rw [← encode_of_decodeWord h]
  exact encode_meets_row i

/-! ### Illegal words (R70) -/

/-- The table of R70. -/
def IllegalWord (w : Word) : Prop :=
  (w.toNat / 4096 = 0x0 ∧ w.toNat % 256 ≠ 0xE0 ∧ w.toNat % 256 ≠ 0xEE) ∨
  (w.toNat / 4096 = 0x8 ∧ w.toNat % 16 ∈ [0x8, 0x9, 0xA, 0xB, 0xC, 0xD, 0xF]) ∨
  (w.toNat / 4096 = 0xE ∧ w.toNat % 256 ≠ 0x9E ∧ w.toNat % 256 ≠ 0xA1) ∨
  (w.toNat / 4096 = 0xF ∧ w.toNat % 256 ∉ [0x07, 0x0A, 0x15, 0x18, 0x1E, 0x29, 0x33, 0x55, 0x65])

/-- A legal word decodes, and an illegal one is a bad opcode. -/
theorem decodeWord_legal_or_illegal (w : Word) :
    ((∃ i, decodeWord w = .ok i) ∧ ¬ IllegalWord w) ∨ (decodeWord w = .error (.badOpcode w) ∧ IllegalWord w) := by
  obtain ⟨hfam, hnn, hn⟩ := fields_toNat w
  have hfam_lt : w.toNat / 4096 < 16 := by omega
  have hn_lt : w.toNat % 16 < 16 := by omega
  simp only [decodeWord, IllegalWord, hfam, hnn, hn]
  clear hfam hnn hn
  generalize w.toNat / 4096 = family at *
  generalize w.toNat % 256 = low at *
  generalize w.toNat % 16 = nibble at *
  split
  case h_1 | h_15 | h_16 => split <;> simp_all
  case h_9 =>
    split <;> simp_all
    omega
  case h_17 =>
    simp only [imp_false] at *
    omega
  all_goals exact .inl ⟨⟨_, rfl⟩, by simp⟩

/-- Settles O11: a word is illegal exactly when the decoder rejects it. -/
theorem illegalWordsAreExactlyThese : Obligations.IllegalWordsAreExactlyThese := by
  intro w
  rcases decodeWord_legal_or_illegal w with ⟨⟨i, hdecode⟩, hlegal⟩ | ⟨hdecode, hillegal⟩
  · rw [hdecode]
    exact ⟨⟨nofun, fun h => absurd h hlegal⟩, nofun⟩
  · rw [hdecode]
    exact ⟨⟨fun _ => hillegal, fun _ => rfl⟩, fun e h => (Except.error.inj h).symm⟩

/-- Settles O12: the words of the spec's examples, decoded one by one. -/
theorem writtenWordsDecode : Obligations.WrittenWordsDecode := by
  unfold Obligations.WrittenWordsDecode
  decide

end Sys2Proof

/-!
Aliases (spec/30_encoding.md R69): the canonical form of an instruction executes alike, and its word has the ignored
bits 0.
-/

namespace Sys2Proof

theorem packXYN_toNat (f x y n : Nibble) : (packXYN f x y n).toNat = (f ++ x ++ y).toNat * 16 + n.toNat := by
  have h : (packXYN f x y n).toNat = (f ++ x ++ y).toNat <<< 4 ||| n.toNat := BitVec.toNat_append (f ++ x ++ y) n
  rw [h, ← Nat.shiftLeft_add_eq_or_of_lt n.isLt, Nat.shiftLeft_eq]

/-- The word of format `XYN` with its low nibble cleared. -/
theorem packXYN_zero_toNat (f x y n : Nibble) : (packXYN f x y 0).toNat = (packXYN f x y n).toNat / 16 * 16 := by
  have hn := n.isLt
  have hzero : (0 : Nibble).toNat = 0 := rfl
  rw [packXYN_toNat, packXYN_toNat]
  omega

namespace Instr

theorem canonical_wellFormed (i : Instr) : i.canonical.wellFormed = true := by
  cases i <;> rfl

/-- Only the four rows with ignored bits have a canonical form of their own. -/
theorem canonical_of_wellFormed {i : Instr} (h : i.wellFormed = true) : i.canonical = i := by
  cases i
  case cls | ret | seReg | sneReg =>
    obtain rfl := beq_iff_eq.mp h
    rfl
  all_goals rfl

end Instr

open Machine in
/-- No meaning reads the ignored bits. -/
theorem exec_canonical (i : Instr) (s : State) : exec i s = exec i.canonical s := by
  cases i <;> rfl

/-- Settles O13: no meaning reads the ignored bits, and in the four canonical words they are 0. -/
theorem aliasesExecuteAsCanonical : Obligations.AliasesExecuteAsCanonical :=
  ⟨exec_canonical, fun i => ⟨i.canonical_wellFormed, i.canonical_of_wellFormed⟩,
    fun _ _ _ => ⟨packXYN_zero_toNat .., packXYN_zero_toNat .., rfl, rfl⟩⟩

end Sys2Proof

/-!
Placed words and the canonical form of memory (spec/40_cycle.md R81, log entries 8 and 9).
-/

namespace Sys2Proof.Machine

/-! ### A word placed where the next cycle fetches -/

theorem tableWord_sixteen {w : Nat} (hw : w < 65536) : tableWord 16 w = BitVec.ofNat 16 w := by
  rw [tableWord, Nat.mod_eq_of_lt (b := 2 ^ 16) hw]

/-- What every address reads as once a word is placed: its two bytes at PC and PC + 1, the old byte elsewhere. -/
theorem byteAt_withFetchWord {s : State} (hwf : s.mem.wf s.cfg = true) (nbits w a : Nat) :
    (s.withFetchWord nbits w).byteAt a =
      if a % 4096 = (s.pc.toNat + 1) % 4096 then lowByte (tableWord nbits w)
      else if a % 4096 = s.pc.toNat % 4096 then highByte (tableWord nbits w) else s.byteAt a := by
  have hhigh := Memory.wf_write hwf (Nat.mod_lt s.pc.toNat (by decide : 0 < 4096)) (highByte (tableWord nbits w))
  simp only [State.byteAt, State.withFetchWord, Config.memSize]
  rw [Memory.read_write hhigh, Memory.read_write hwf]

/-- The table decoder and the decoder read the same instruction from a 16-bit word. -/
theorem decodeTableWord_eq_some {w : Nat} (hw : w < 65536) (i : Instr) :
    decodeTableWord 16 w = some i ↔ decodeWord (BitVec.ofNat 16 w) = .ok i := by
  simp only [decodeTableWord, decode, tableWord_sixteen hw, wordOfBytes_bytes]
  cases decodeWord (BitVec.ofNat 16 w) <;> simp

/-- Settles O17: the two cells are different, so the fetch reads the two bytes of the word. -/
theorem placedWordIsFetched : Obligations.PlacedWordIsFetched := by
  intro s w hwf hreach hw
  have hread := byteAt_withFetchWord hwf 16 w
  refine ⟨rfl, ?fetched, fun a hhigh hlow => ?kept, decodeTableWord_eq_some hw⟩
  case fetched =>
    have hhigh : (s.withFetchWord 16 w).byteAt s.pc.toNat = highByte (BitVec.ofNat 16 w) := by
      rw [hread, if_neg (by omega), if_pos rfl, tableWord_sixteen hw]
    have hlow : (s.withFetchWord 16 w).byteAt (s.pc.toNat + 1) = lowByte (BitVec.ofNat 16 w) := by
      rw [hread, if_pos rfl, tableWord_sixteen hw]
    have hfetch := fetch_eq_ok (s := s.withFetchWord 16 w) hreach
    rw [show (s.withFetchWord 16 w).pc = s.pc from rfl, hhigh, hlow, ← wordOfBytes_eq, wordOfBytes_bytes] at hfetch
    exact hfetch
  case kept => rw [hread, if_neg hlow, if_neg hhigh]

/-! ### The canonical form is canonical -/

namespace Memory

variable {cfg : Config}

theorem wfFrom_cons {low a : Nat} {b : Byte} {m : Memory} :
    wfFrom cfg low ((a, b) :: m) = true ↔
      low ≤ a ∧ a < 4096 ∧ b ≠ resetByte cfg a ∧ wfFrom cfg (a + 1) m = true := by
  simp [wfFrom, and_assoc]

/-- The first listed cell is one that a canonical memory starting above it does not read alike. -/
theorem read_ne_of_above {low a : Nat} {b : Byte} {m m' : Memory} (h : wfFrom cfg low ((a, b) :: m) = true)
    (h' : wfFrom cfg (a + 1) m' = true) : read cfg ((a, b) :: m) a ≠ read cfg m' a := by
  obtain ⟨-, -, hb, -⟩ := wfFrom_cons.mp h
  rw [read_cons, if_pos rfl, read_of_below h' a.lt_succ_self]
  exact hb

/-- Canonical memories that read alike list the same cells, from any bound up. -/
theorem eq_of_read_eq {low : Nat} {m m' : Memory} (h : wfFrom cfg low m = true) (h' : wfFrom cfg low m' = true)
    (hread : ∀ a, a < 4096 → read cfg m a = read cfg m' a) : m = m' := by
  induction m generalizing low m' with
  | nil =>
    cases m' with
    | nil => rfl
    | cons c m' =>
      obtain ⟨a, b⟩ := c
      obtain ⟨-, ha, -, -⟩ := wfFrom_cons.mp h'
      exact absurd (hread a ha).symm (read_ne_of_above h' rfl)
  | cons c m ih =>
    obtain ⟨a, b⟩ := c
    obtain ⟨hlow, ha, hb, htail⟩ := wfFrom_cons.mp h
    cases m' with
    | nil => exact absurd (hread a ha) (read_ne_of_above h rfl)
    | cons c' m' =>
      obtain ⟨a', b'⟩ := c'
      obtain ⟨hlow', ha', hb', htail'⟩ := wfFrom_cons.mp h'
      rcases lt_trichotomy a a' with hlt | rfl | hgt
      · exact absurd (hread a ha) (read_ne_of_above h (wfFrom_cons.mpr ⟨hlt, ha', hb', htail'⟩))
      · have hbyte : b = b' := by simpa [read_cons] using hread a ha
        have htails : ∀ c, c < 4096 → read cfg m c = read cfg m' c := fun c hc => by
          by_cases hca : c = a
          · rw [hca, read_of_below htail a.lt_succ_self, read_of_below htail' a.lt_succ_self]
          · simpa [read_cons, hca] using hread c hc
        rw [hbyte, ih htail htail' htails]
      · exact absurd (hread a' ha').symm (read_ne_of_above h' (wfFrom_cons.mpr ⟨hgt, ha, hb, htail⟩))

end Memory

/-- Settles O29: by `Memory.eq_of_read_eq`, from the bound 0. -/
theorem canonicalMemoryIsUnique : Obligations.CanonicalMemoryIsUnique :=
  fun _ _ _ => Memory.eq_of_read_eq

end Sys2Proof.Machine

/-!
Control transfer (spec/41_control_flow.md R90 to R92, R97): the stack's two operations and the jumps.
-/

namespace Sys2Proof.Machine

/-! ### RET and CALL -/

theorem execRet_of_empty {s : State} (h : s.stack = []) : execRet s = .next (s.raise (.stackError .underflow)) := by
  simp only [execRet, State.pop?, h, List.getLast?_nil, raiseFault]

theorem execRet_of_append {s : State} {older : List Word} {a : Word} (h : s.stack = older ++ [a]) :
    execRet s = .next { s with stack := older, pc := a } := by
  simp only [execRet, State.pop?, h, List.getLast?_concat, List.dropLast_concat]
  rfl

theorem execCall_of_room {nnn : Addr12} {s : State} (h : s.stack.length < 16) :
    execCall nnn s = .next { s with stack := s.stack ++ [s.pc], pc := zext12 nnn } := if_pos h

theorem execCall_of_full {nnn : Addr12} {s : State} (h : 16 ≤ s.stack.length) :
    execCall nnn s = .next (s.raise (.stackError .overflow)) := if_neg (Nat.not_lt.mpr h)

/-- Settles O30: the two answers of the pop. -/
theorem returnPopsNewestEntry : Obligations.ReturnPopsNewestEntry :=
  fun _ _ => ⟨execRet_of_empty, fun _ _ => execRet_of_append⟩

theorem zext12_toNat (nnn : Addr12) : (zext12 nnn).toNat = nnn.toNat :=
  BitVec.toNat_setWidth_of_le (by decide)

theorem zext8_toNat (b : Byte) : (zext8 b).toNat = b.toNat :=
  BitVec.toNat_setWidth_of_le (by decide)

/-- Settles O32: the two sides of the test for room. -/
theorem callPushesReturnAddress : Obligations.CallPushesReturnAddress :=
  fun nnn _ => ⟨fun hroom => ⟨_, execCall_of_room hroom, rfl, zext12_toNat nnn⟩, fun hfull => execCall_of_full hfull.ge⟩

/-- Settles O33: the callee's stack is the caller's with the return address on top. -/
theorem returnUndoesCall : Obligations.ReturnUndoesCall := by
  intro nnn ign s t u hroom hcall hu
  obtain rfl := Host.Outcome.next.inj ((execCall_of_room hroom).symm.trans hcall)
  exact execRet_of_append hu

/-! ### The jumps -/

theorem topNibble_val (nnn : Addr12) : (topNibble nnn).val = nnn.toNat / 256 := by
  have := nnn.isLt
  have h : (topNibble nnn).val = nnn.toNat >>> 8 % 2 ^ 4 := BitVec.extractLsb'_toNat ..
  rw [h, Nat.shiftRight_eq_div_pow]
  omega

/-- The target of JP V0 is not reduced: a 12-bit and an 8-bit number never reach 2^16. -/
theorem jpV0_target_toNat (nnn : Addr12) (b : Byte) : (zext12 nnn + zext8 b).toNat = nnn.toNat + b.toNat := by
  have := nnn.isLt
  have := b.isLt
  rw [BitVec.toNat_add, zext12_toNat, zext8_toNat]
  omega

/-- Settles O31: the target as a number, for the register that the quirk selects. -/
theorem jumpsSetPC : Obligations.JumpsSetPC := by
  intro nnn s
  refine ⟨⟨_, rfl, rfl, zext12_toNat nnn⟩, _, rfl, rfl, fun hq => ?plain, fun x hq hx => ?quirk⟩
  case plain =>
    have hreg : jumpReg s.q nnn = 0 := by simp [jumpReg, hq]
    exact hreg ▸ jpV0_target_toNat nnn _
  case quirk =>
    have hreg : jumpReg s.q nnn = x := by
      rw [jumpReg, if_pos hq]
      exact Fin.ext ((topNibble_val nnn).trans hx.symm)
    exact hreg ▸ jpV0_target_toNat nnn _

end Sys2Proof.Machine

/-!
The differences and the random byte (spec/42_alu.md R111, R113, R115), and the writes of `I` (spec/43_index_memory.md
R121 to R123).
-/

namespace Sys2Proof.Machine

/-- No borrow as the number VF receives (spec/42_alu.md R102). -/
theorem noBorrowFlag_toNat (a b : Byte) : (noBorrowFlag a b).toNat = if a.toNat ≥ b.toNat then 1 else 0 := by
  rw [noBorrowFlag, Bool.toNat, Bool.cond_decide]

theorem toNat_sub_byte (a b : Byte) :
    (a - b).toNat = if a.toNat ≥ b.toNat then a.toNat - b.toNat else a.toNat + 256 - b.toNat := by
  have := a.isLt
  have := b.isLt
  rw [BitVec.toNat_sub]
  split <;> omega

/-- Settles O38: SUBN is the difference with the operands exchanged. -/
theorem subtractWritesDifferenceThenNoBorrow : Obligations.SubtractWritesDifferenceThenNoBorrow := by
  rintro x y s i a b (⟨rfl, rfl, rfl⟩ | ⟨rfl, rfl, rfl⟩)
  all_goals exact s.next_writeWithFlag x _ _ (noBorrowFlag_toNat _ _) (toNat_sub_byte _ _)

/-- Settles O40: a plain write, after the count of draws. -/
theorem randomByteUnderMask : Obligations.RandomByteUnderMask := by
  intro x nn s
  obtain ⟨t, hexec, hframe, hx, hothers⟩ :=
    State.next_writeV { s with rndIndex := s.rndIndex + 1 } x (Config.rndByte s.rndIndex &&& nn)
  have hbit : ∀ k, (t.readV x).getLsbD k = ((Config.rndByte s.rndIndex).getLsbD k && nn.getLsbD k) := fun k => by
    rw [hx, BitVec.getLsbD_and]
  exact ⟨t, hexec, hframe, hbit, fun k hk => by rw [hbit, hk, Bool.and_false], hothers⟩

/-! ### The index register -/

theorem lowNibble_val (b : Byte) : (lowNibble b).val = b.toNat % 16 :=
  BitVec.extractLsb'_toNat 0 4 b

/-- Settles O41: each is an update of `I`; the sums are modulo 2^16. -/
theorem indexRegisterWrites : Obligations.IndexRegisterWrites := by
  intro nnn x s
  refine ⟨⟨_, rfl, rfl, zext12_toNat nnn⟩, ⟨_, rfl, rfl, ?addI⟩, _, rfl, rfl, ?ldF⟩
  case addI =>
    rw [State.setI_i, BitVec.toNat_add, zext8_toNat]
  case ldF =>
    rw [State.setI_i, glyphAddr, BitVec.toNat_ofNat, lowNibble_val]

end Sys2Proof.Machine

/-!
The key instructions (spec/45_keys_timers.md R140 to R142).
-/

namespace Sys2Proof.Machine

/-- Settles O51: the key is the one that the low nibble names. -/
theorem keySkipsTestKeyNow : Obligations.KeySkipsTestKeyNow := by
  intro x k s hk
  obtain rfl : k = lowNibble (s.readV x) := Fin.ext (hk.trans (lowNibble_val _).symm)
  constructor
  case left => rw [exec_skp, execSkp, State.skipIf_eq]
  case right =>
    rw [exec_sknp, execSknp, State.skipIf_eq]
    cases s.keyNow[lowNibble (s.readV x)] <;> rfl

theorem execLdVxK_of_none {s : State} (h : s.releasedKey = none) (x : Reg) :
    execLdVxK x s = .next (s.setPC (s.pc - 2)) := by
  simp only [execLdVxK, h]

theorem execLdVxK_of_some {s : State} {k : KeyId} (h : s.releasedKey = some k) (x : Reg) :
    execLdVxK x s = .next (s.writeV x (BitVec.ofNat 8 k.val)) := by
  simp only [execLdVxK, h]

/-- Settles O52: by the edge detector's two answers. -/
theorem keyWaitLoadsLowestReleased : Obligations.KeyWaitLoadsLowestReleased := by
  intro x s
  refine ⟨fun hnone => execLdVxK_of_none (State.releasedKey_eq_none.mpr hnone) x, fun k hprev hnow hlowest => ?_⟩
  obtain ⟨t, hexec, hframe, hx, hothers⟩ := s.next_writeV x (BitVec.ofNat 8 k.val)
  refine ⟨t, (execLdVxK_of_some (State.releasedKey_eq_some hprev hnow hlowest) x).trans hexec, hframe, ?_, hothers⟩
  rw [hx, BitVec.toNat_ofNat]
  omega

/-- The two bytes of LD Vx,K as its word. -/
theorem encode_ldVxK : ∀ x : Reg, encode (.ldVxK x) = BitVec.ofNat 16 ((0xF0 + x.val) * 256 + 0x0A) := by decide

/-- Settles O53: the cycle decodes LD Vx,K, which moves PC back to it. -/
theorem waitingKeyCycleOnlyCounts : Obligations.WaitingKeyCycleOnlyCounts := by
  intro x s hfault hreach hhigh hlow hnone
  have hfetch : fetch s = .ok (encode (.ldVxK x), s.setPC (s.pc + 2)) := by
    rw [fetch_eq_ok hreach, hhigh, hlow, encode_ldVxK]
    rfl
  have hexec : exec (.ldVxK x) (s.setPC (s.pc + 2)) = .next s := by
    have hwait : (s.setPC (s.pc + 2)).releasedKey = none := State.releasedKey_eq_none.mpr hnone
    rw [exec_ldVxK, execLdVxK_of_none hwait, State.setPC_pc, BitVec.add_sub_cancel]
    rfl
  rw [step_of_exec hfault hfetch (decodeWord_encode _) hexec, State.countCycle_eq, if_pos hfault]

end Sys2Proof.Machine

/-!
LD [I],Vx and LD Vx,[I] (spec/43_index_memory.md R125, R126): what a transfer of the first registers leaves, complete
or cut by a fault.
-/

namespace Sys2Proof.Machine

/-! ### What a transfer of the first `k` registers leaves -/

/-- `t` is `s` with V0..V(k-1) stored from `I` up and `I` moved along under the `index` quirk. -/
structure RegsStored (k : Nat) (s t : State) : Prop where
  frame : t = { s with mem := t.mem, i := t.i }
  index : t.i.toNat = if s.q.index = true then (s.i.toNat + k) % 65536 else s.i.toNat
  stored : ∀ r : Reg, r.val < k → t.byteAt (s.i.toNat + r.val) = s.readV r
  others : ∀ a, (∀ r : Reg, r.val < k → a % 4096 ≠ (s.i.toNat + r.val) % 4096) → t.byteAt a = s.byteAt a

/-- `t` is `s` with V0..V(k-1) loaded from `I` up and `I` moved along under the `index` quirk. -/
structure RegsLoaded (k : Nat) (s t : State) : Prop where
  frame : t = { s with v := t.v, i := t.i }
  index : t.i.toNat = if s.q.index = true then (s.i.toNat + k) % 65536 else s.i.toNat
  loaded : ∀ r : Reg, r.val < k → t.readV r = s.byteAt (s.i.toNat + r.val)
  others : ∀ r : Reg, k ≤ r.val → t.readV r = s.readV r

/-- `I` after the transfer of `k` registers, which no register leaves as it was. -/
theorem movedIndex_toNat (bump : Bool) (i : Word) (k : Nat) :
    (if bump = true ∧ 0 < k then BitVec.ofNat 16 (i.toNat + k) else i).toNat =
      if bump = true then (i.toNat + k) % 65536 else i.toNat := by
  have := i.isLt
  cases bump with
  | false => rfl
  | true =>
    rcases Nat.eq_zero_or_pos k with rfl | hk
    · simp [Nat.mod_eq_of_lt this]
    · simp [hk]

/-! ### LD [I],Vx -/

/-- The store of the first `k` registers completes when none of its accesses faults. -/
theorem storeBytes_take_regs (x : Reg) {k : Nat} {s : State} (hwf : s.mem.wf s.cfg = true) (hk : k ≤ x.val + 1)
    (hin : ∀ j, j < k → s.q.haltOnOOBAccess = false ∨ s.i.toNat + j < 4096) :
    ∃ t, storeBytes s.q.index s.i 0 (((regsUpTo x).map s.readV).take k) s = .done t ∧ RegsStored k s t := by
  have hx := x.isLt
  have hlen : (((regsUpTo x).map s.readV).take k).length = k :=
    List.length_take_of_le (by rwa [List.length_map, regsUpTo_length])
  obtain ⟨t, hstore, -, hframe, hbytes, hothers⟩ :=
    storeBytes_done s.q.index s.i 0 _ s hwf (hlen.trans_le (by omega)) fun j hj => by simpa using hin j (hlen ▸ hj)
  refine ⟨t, hstore, ?frame, ?index, fun r hr => ?stored, fun a ha => ?others⟩
  case frame =>
    rw [hframe]
  case index =>
    rw [hframe, ← movedIndex_toNat]
    simp only [← List.length_pos_iff_ne_nil, hlen, Nat.add_zero]
  case stored =>
    have hb := hbytes r.val (hlen.symm ▸ hr)
    rwa [Nat.zero_add, List.getElem_take, List.getElem_map, regsUpTo_getElem] at hb
  case others =>
    refine hothers a fun j hj => ?_
    have hj' : j < k := hlen ▸ hj
    simpa using ha ⟨j, by omega⟩ hj'

/-- LD [I],Vx with every access in bounds or wrapping. -/
theorem execStoreRegs_of_reachable {x : Reg} {s : State} (hwf : s.mem.wf s.cfg = true)
    (h : Reachable s s.i (x.val + 1)) : ∃ t, execStoreRegs x s = .next t ∧ RegsStored (x.val + 1) s t := by
  obtain ⟨t, hstore, ht⟩ := storeBytes_take_regs x hwf le_rfl fun _ => h.inBounds
  rw [List.take_of_length_le (by rw [List.length_map, regsUpTo_length])] at hstore
  exact ⟨t, congrArg finish hstore, ht⟩

/-- LD [I],Vx whose element `k` is the first to fault: the registers before it, and then the fault is taken. -/
theorem execStoreRegs_of_firstFault {x : Reg} {k : Nat} {s : State} (hwf : s.mem.wf s.cfg = true) (hk : k ≤ x.val)
    (h : FirstFault s s.i k) :
    ∃ t, execStoreRegs x s = .next (t.raise (.outOfBounds (s.i.toNat + k))) ∧ RegsStored k s t := by
  obtain ⟨hq, hout, hin⟩ := h
  obtain ⟨t, hstore, ht⟩ := storeBytes_take_regs x hwf (Nat.le_succ_of_le hk) fun j hj => .inr (hin j hj)
  have hlt : k < ((regsUpTo x).map s.readV).length := by
    rw [List.length_map, regsUpTo_length]
    exact Nat.lt_succ_of_le hk
  obtain ⟨u, hraised, hbefore⟩ := storeBytes_raised s.q.index s.i 0 k _ s hlt hq (by simpa using hout)
    (by simpa using hin)
  obtain rfl : t = u := Progress.done.inj (hstore.symm.trans hbefore)
  rw [Nat.zero_add] at hraised
  exact ⟨t, congrArg finish hraised, ht⟩

/-- Settles O43: a store that completes leaves V0..VX, and one that faults at element `k` the first `k` registers. -/
theorem registersStored : Obligations.RegistersStored := by
  intro x s hwf
  refine ⟨fun hreach => ?complete, fun k hk hfault => ?faulting⟩
  case complete =>
    obtain ⟨t, hexec, ht⟩ := execStoreRegs_of_reachable hwf hreach
    exact ⟨t, hexec, ht.frame, ht.index, fun r hr => ht.stored r (Nat.lt_succ_of_le hr),
      fun a ha => ht.others a fun r hr => ha r (Nat.le_of_lt_succ hr)⟩
  case faulting =>
    obtain ⟨t, hexec, ht⟩ := execStoreRegs_of_firstFault hwf hk hfault
    exact ⟨_, hexec, congrArg (State.raise · _) ht.frame, ht.index, ht.stored, ht.others⟩

/-! ### LD Vx,[I] -/

/-- The load of the first `k` registers completes when none of its accesses faults. -/
theorem loadBytes_take_regs {k : Nat} {s : State} (hk : k ≤ 16)
    (hin : ∀ j, j < k → s.q.haltOnOOBAccess = false ∨ s.i.toNat + j < 4096) :
    ∃ t, loadBytes s.q.index s.i ((List.finRange 16).take k) s = .done t ∧ RegsLoaded k s t := by
  have hindex := movedIndex_toNat s.q.index s.i k
  cases k with
  | zero => exact ⟨s, rfl, rfl, by simpa using hindex, nofun, fun _ _ => rfl⟩
  | succ n =>
    let last : Reg := ⟨n, hk⟩
    obtain ⟨t, hload, hframe, hloaded, hothers⟩ := loadBytes_done s.q.index s.i (regsUpTo last) s (regsUpTo_nodup last)
      fun r hr => hin r.val (Nat.lt_succ_of_le ((mem_regsUpTo last r).mp hr))
    refine ⟨t, hload, ?frame, ?index, fun r hr => ?loaded, fun r hr => ?others⟩
    case frame => rw [hframe]
    case index =>
      rw [hframe, ← hindex, regsUpTo_getLast]
      simp [last, Nat.add_assoc]
    case loaded => exact hloaded r ((mem_regsUpTo last r).mpr (Nat.le_of_lt_succ hr))
    case others => exact hothers r fun hmem => absurd ((mem_regsUpTo last r).mp hmem) (Nat.not_le.mpr hr)

/-- LD Vx,[I] with every access in bounds or wrapping. -/
theorem execLoadRegs_of_reachable {x : Reg} {s : State} (h : Reachable s s.i (x.val + 1)) :
    ∃ t, execLoadRegs x s = .next t ∧ RegsLoaded (x.val + 1) s t := by
  obtain ⟨t, hload, ht⟩ := loadBytes_take_regs x.isLt fun _ => h.inBounds
  exact ⟨t, congrArg finish hload, ht⟩

/-- LD Vx,[I] whose element `k` is the first to fault: the registers before it, and then the fault is taken. -/
theorem execLoadRegs_of_firstFault {x k : Reg} {s : State} (hk : k ≤ x) (h : FirstFault s s.i k.val) :
    ∃ t, execLoadRegs x s = .next (t.raise (.outOfBounds (s.i.toNat + k.val))) ∧ RegsLoaded k.val s t := by
  obtain ⟨hq, hout, hin⟩ := h
  obtain ⟨t, hload, ht⟩ := loadBytes_take_regs k.isLt.le fun j hj => .inr (hin j hj)
  obtain ⟨u, hraised, hbefore⟩ := loadBytes_raised s.q.index s.i ((List.finRange 16).take k.val) k
    ((regsUpTo x).drop (k.val + 1)) s hq hout fun r hr => hin r.val ((mem_take_finRange k r).mp hr)
  obtain rfl : t = u := Progress.done.inj (hload.symm.trans hbefore)
  rw [← regsUpTo_split x k hk] at hraised
  exact ⟨t, congrArg finish hraised, ht⟩

/-- Settles O44: a load that completes gives V0..VX their bytes, and one that faults at element `k` the first `k`. -/
theorem registersLoaded : Obligations.RegistersLoaded := by
  intro x s
  refine ⟨fun hreach => ?complete, fun k hk hfault => ?faulting⟩
  case complete =>
    obtain ⟨t, hexec, ht⟩ := execLoadRegs_of_reachable hreach
    exact ⟨t, hexec, ht.frame, ht.index, fun r hr => ht.loaded r (Nat.lt_succ_of_le hr), ht.others⟩
  case faulting =>
    obtain ⟨t, hexec, ht⟩ := execLoadRegs_of_firstFault hk hfault
    exact ⟨_, hexec, congrArg (State.raise · _) ht.frame, ht.index, ht.loaded, ht.others⟩

/-- Settles O45: the load reads at each address the byte that the store left there. -/
theorem storeThenLoadRestoresRegisters : Obligations.StoreThenLoadRestoresRegisters := by
  intro x s t u w hwf hreach hstore hmem hcfg hq hi hload r hr
  obtain ⟨t', hstore', ht⟩ := execStoreRegs_of_reachable hwf hreach
  obtain rfl : t' = t := Host.Outcome.next.inj (hstore'.symm.trans hstore)
  have hreach' : Reachable u u.i (x.val + 1) := by
    rw [Reachable, hq, hi]
    exact hreach
  obtain ⟨w', hload', hw⟩ := execLoadRegs_of_reachable hreach'
  obtain rfl : w' = w := Host.Outcome.next.inj (hload'.symm.trans hload)
  have hcfg' : t'.cfg = s.cfg := by rw [ht.frame]
  calc w'.readV r
    _ = u.byteAt (u.i.toNat + r.val) := hw.loaded r (Nat.lt_succ_of_le hr)
    _ = t'.byteAt (s.i.toNat + r.val) := by rw [State.byteAt, State.byteAt, hmem, hcfg, hcfg', hi]
    _ = s.readV r := ht.stored r (Nat.lt_succ_of_le hr)

end Sys2Proof.Machine

/-!
DRW (spec/44_display.md R131 to R137): a sprite that completes, one cut by a fault, the empty one and the one drawn
twice.
-/

namespace Sys2Proof.Machine

/-! ### What a completed sprite leaves unchanged -/

section Drawn

variable {s t : State} {x0 y0 : Nat} {base : Word} {rs : List Nat} {col : Bool} (ht : Drawn s t x0 y0 base rs col)
include ht

theorem Drawn.frame_v : t = { s with fb := t.fb, v := t.v, drawPending := true } := by
  have hv := congrArg State.v ht.frame
  rw [hv]
  exact ht.frame

theorem Drawn.readV_other {r : Reg} (hr : r ≠ 15) : t.readV r = s.readV r :=
  (congrArg (State.readV · r) ht.frame).trans (s.readV_writeV_other hr.symm (t.readV 15))

theorem Drawn.q_eq : t.q = s.q := by rw [ht.frame]

theorem Drawn.i_eq : t.i = s.i := by rw [ht.frame]

theorem Drawn.byteAt_eq (a : Nat) : t.byteAt a = s.byteAt a := by
  rw [ht.frame]
  rfl

/-- What a sprite lights is read from the quirk and from memory, which a sprite does not write. -/
theorem Drawn.rowsLight_iff (x0' y0' : Nat) (base' : Word) (rs' : List Nat) (py : Fin 32) (px : Fin 64) :
    RowsLight t x0' y0' base' rs' py px ↔ RowsLight s x0' y0' base' rs' py px := by
  simp only [RowsLight, ht.q_eq, ht.byteAt_eq]

end Drawn

/-! ### DRW, complete and cut by a fault -/

/-- The rows of a sprite up to `k`, none of which faults. -/
theorem blitRows_range (x0 y0 : Nat) {k : Nat} {s : State} (hk : k ≤ 16)
    (hin : ∀ r, r < k → s.q.haltOnOOBAccess = false ∨ s.i.toNat + r < 4096) :
    ∃ t, blitRows x0 y0 s.i (List.range k) false s = .done t ∧ Drawn s t x0 y0 s.i (List.range k) false :=
  blitRows_done x0 y0 s.i (List.range k) false s List.nodup_range
    (fun _ hr => (List.mem_range.mp hr).trans_le hk) fun r hr => hin r (List.mem_range.mp hr)

theorem execDrw_of_reachable (x y : Reg) {n : Nibble} {s : State} (h : Reachable s s.i n.toNat) :
    ∃ t, execDrw x y n s = .next t ∧
      Drawn s t ((s.readV x).toNat % 64) ((s.readV y).toNat % 32) s.i (List.range n.toNat) false := by
  obtain ⟨t, hblit, ht⟩ :=
    blitRows_range ((s.readV x).toNat % 64) ((s.readV y).toNat % 32) n.isLt.le fun _ => h.inBounds
  exact ⟨t, congrArg finish hblit, ht⟩

theorem range_split {k n : Nat} (h : k < n) :
    List.range n = List.range k ++ k :: (List.range n).drop (k + 1) := by
  have hcut := List.take_append_drop k (List.range n)
  rw [List.take_range, Nat.min_eq_left h.le, List.drop_eq_getElem_cons (by rwa [List.length_range]),
    List.getElem_range] at hcut
  exact hcut.symm

/-- DRW whose row `k` is the first to fault: the screen is that of the completed sprite of the rows before it. -/
theorem execDrw_of_firstFault (x y : Reg) {n : Nibble} {k : Nat} {s : State} (hk : k < n.toNat)
    (h : FirstFault s s.i k) :
    ∃ u, execDrw x y n s = .next (State.raise { s with fb := u.fb } (.outOfBounds (s.i.toNat + k))) ∧
      Drawn s u ((s.readV x).toNat % 64) ((s.readV y).toNat % 32) s.i (List.range k) false := by
  obtain ⟨hq, hout, hin⟩ := h
  obtain ⟨t, u, hraised, hbefore, rfl⟩ := blitRows_raised ((s.readV x).toNat % 64) ((s.readV y).toNat % 32) s.i
    (List.range k) k ((List.range n.toNat).drop (k + 1)) false s hq hout fun r hr => hin r (List.mem_range.mp hr)
  obtain ⟨u', hblit, hu⟩ := blitRows_range ((s.readV x).toNat % 64) ((s.readV y).toNat % 32)
    (hk.trans n.isLt).le fun r hr => .inr (hin r hr)
  obtain rfl : u' = u := Progress.done.inj (hblit.symm.trans hbefore)
  rw [← range_split hk] at hraised
  exact ⟨u', congrArg finish hraised, hu⟩

/-! ### The obligations -/

/-- Settles O47: `Drawn` in the terms of `SpriteLights`, with no collision before the first row. -/
theorem drawXorsSpriteAndFlagsCollision : Obligations.DrawXorsSpriteAndFlagsCollision := by
  intro x y n s hreach
  obtain ⟨t, hexec, ht⟩ := execDrw_of_reachable x y hreach
  simp only [spriteLights_iff]
  exact ⟨t, hexec, ht.frame_v, ht.lit, ht.dark, fun h => ht.hit (.inr h),
    fun h => ht.miss (not_or.mpr ⟨Bool.false_ne_true, h⟩), fun _ => ht.readV_other⟩

/-- Settles O48: the screen of the rows before the fault, in the terms of `SpriteLights`. -/
theorem faultingDrawKeepsRowsBefore : Obligations.FaultingDrawKeepsRowsBefore := by
  intro x y n k s hk hfault
  obtain ⟨u, hexec, hu⟩ := execDrw_of_firstFault x y hk hfault
  simp only [spriteLights_iff]
  exact ⟨_, hexec, rfl, hu.lit, hu.dark⟩

/-- Settles O49: no row, so the sprite is its last step alone. -/
theorem emptyDrawOnlyClearsVF : Obligations.EmptyDrawOnlyClearsVF := by
  intro x y s
  have hexec : exec (.drw x y 0) s = .next ({ s with drawPending := true }.writeV vf (flagByte false)) := rfl
  rw [hexec]
  exact State.next_writeV { s with drawPending := true } vf (flagByte false)

/-- Settles O50: both sprites light the same pixels, so the second flips back what the first flipped, and meets on
exactly the pixels that the first turned on. -/
theorem secondDrawRestoresScreen : Obligations.SecondDrawRestoresScreen := by
  intro x y x' y' n s t u hreach hfirst hx hy hsecond
  obtain ⟨t', hfirst', ht⟩ := execDrw_of_reachable x y hreach
  obtain rfl : t' = t := Host.Outcome.next.inj (hfirst'.symm.trans hfirst)
  have hreach' : Reachable t' t'.i n.toNat := by
    rw [Reachable, ht.q_eq, ht.i_eq]
    exact hreach
  obtain ⟨u', hsecond', hu⟩ := execDrw_of_reachable x' y' hreach'
  obtain rfl : u' = u := Host.Outcome.next.inj (hsecond'.symm.trans hsecond)
  rw [hx, hy, ht.i_eq] at hu
  have hsame := ht.rowsLight_iff ((s.readV x).toNat % 64) ((s.readV y).toNat % 32) s.i (List.range n.toNat)
  simp only [spriteLights_iff]
  refine ⟨Screen.ext_pixel fun py px => ?restores, fun hoff => ⟨fun ⟨py, px, hlit⟩ => ?hit, fun hnone => ?miss⟩⟩
  case restores =>
    by_cases hlit : RowsLight s ((s.readV x).toNat % 64) ((s.readV y).toNat % 32) s.i (List.range n.toNat) py px
    · rw [hu.lit py px ((hsame py px).mpr hlit), ht.lit py px hlit, Bool.not_not]
    · rw [hu.dark py px (mt (hsame py px).mp hlit), ht.dark py px hlit]
  case hit =>
    refine hu.hit (.inr ⟨py, px, (hsame py px).mpr hlit, ?_⟩)
    rw [ht.lit py px hlit, hoff py px hlit, Bool.not_false]
  case miss =>
    exact hu.miss (not_or.mpr ⟨Bool.false_ne_true, fun ⟨py, px, hlit, _⟩ => hnone ⟨py, px, (hsame py px).mp hlit⟩⟩)

end Sys2Proof.Machine
